-- ==== Sys2Proof/Word.lean ====
section
/-! DEFINITION. The unit of storage: the 32-bit Word and its two integer readings, and text. -/

namespace Sys2Proof

/-- 00_scope.md R5, R8: a Word is a string of exactly 32 bits. Its signed reading `s(v)` of R9 is
`BitVec.toInt`, its unsigned reading `u(v)` is `BitVec.toNat`. -/
abbrev Word := BitVec 32

/-- Text at the symbolic boundary (30_encoding.md R52), character by character. -/
abbrev Text := List Char

end Sys2Proof
end

