-- ==== Sys2Proof/Syntax.lean ====
section
/-! DEFINITION. The instructions: the ten rows of spec/opcode_table.json (30_encoding.md R47). -/

namespace Sys2Proof

/-- 10_state.md R13: a canonical register index, 0 to 31. -/
abbrev RegIdx := Fin 32

/-- 30_encoding.md R41 to R43: the three formats. -/
inductive Format where
  | R
  | I
  | J
  deriving DecidableEq, Repr

/-- 30_encoding.md R47: the ten mnemonics. -/
inductive Mnemonic where
  | add
  | sub
  | and
  | or
  | slt
  | addi
  | lw
  | sw
  | beq
  | j
  deriving DecidableEq, Repr

/-- One constructor per row of the opcode table. The arguments are the fields of the row's format in
the order of the word, under their positional names (30_encoding.md R45: `rs`, bits 25:21, is the
register written). A register is an index, `imm16` and `addr26` are the field's bits (R42, R43); so
every term has operands that fit its word. -/
inductive Instr where
  | add (rs rt rd : RegIdx)
  | sub (rs rt rd : RegIdx)
  | and (rs rt rd : RegIdx)
  | or (rs rt rd : RegIdx)
  | slt (rs rt rd : RegIdx)
  | addi (rs rt : RegIdx) (imm16 : BitVec 16)
  | lw (rs rt : RegIdx) (imm16 : BitVec 16)
  | sw (rs rt : RegIdx) (imm16 : BitVec 16)
  | beq (rs rt : RegIdx) (imm16 : BitVec 16)
  | j (addr26 : BitVec 26)
  deriving DecidableEq, Repr

/-- The mnemonic of an instruction. -/
def Instr.mnemonic : Instr → Mnemonic
  | .add _ _ _ => .add
  | .sub _ _ _ => .sub
  | .and _ _ _ => .and
  | .or _ _ _ => .or
  | .slt _ _ _ => .slt
  | .addi _ _ _ => .addi
  | .lw _ _ _ => .lw
  | .sw _ _ _ => .sw
  | .beq _ _ _ => .beq
  | .j _ => .j

/-- 30_encoding.md R47: the format of each mnemonic. -/
def Mnemonic.format : Mnemonic → Format
  | .add => .R
  | .sub => .R
  | .and => .R
  | .or => .R
  | .slt => .R
  | .addi => .I
  | .lw => .I
  | .sw => .I
  | .beq => .I
  | .j => .J

end Sys2Proof
end

