-- ==== Sys2Proof/Machine/Names.lean ====
section
/-! DEFINITION. Numerals, mnemonic names and register names (30_encoding.md R53, R55, R56). -/

namespace Sys2Proof.Machine

/-- A decimal digit (30_encoding.md R52). -/
def isDigit (c : Char) : Bool := '0'.toNat ≤ c.toNat && c.toNat ≤ '9'.toNat

/-- The value of a string of digits, leading zeros allowed; none for anything else. -/
def parseNat (t : Text) : Option Nat :=
  if t ≠ [] ∧ t.all isDigit then some (t.foldl (fun n c => 10 * n + (c.toNat - '0'.toNat)) 0) else none

/-- The numeral of a register index: "no sign, no leading zero except `0` itself" (30_encoding.md R55). -/
def numeralIndex (name : Text) : Option RegIdx :=
  match parseNat name with
  | none => none
  | some n => if h : n < 32 then if name = ['0'] ∨ name.head? ≠ some '0' then some ⟨n, h⟩ else none else none

/-- 30_encoding.md R56: the alias table (the spec's general knowledge, D30; notes/assumptions/15.md). -/
def aliasTable : List (Text × RegIdx) :=
  [ ("zero".toList, 0), ("at".toList, 1), ("v0".toList, 2), ("v1".toList, 3),
    ("a0".toList, 4), ("a1".toList, 5), ("a2".toList, 6), ("a3".toList, 7) ] ++
  [ ("t0".toList, 8), ("t1".toList, 9), ("t2".toList, 10), ("t3".toList, 11),
    ("t4".toList, 12), ("t5".toList, 13), ("t6".toList, 14), ("t7".toList, 15) ] ++
  [ ("s0".toList, 16), ("s1".toList, 17), ("s2".toList, 18), ("s3".toList, 19),
    ("s4".toList, 20), ("s5".toList, 21), ("s6".toList, 22), ("s7".toList, 23) ] ++
  [ ("t8".toList, 24), ("t9".toList, 25), ("k0".toList, 26), ("k1".toList, 27),
    ("gp".toList, 28), ("sp".toList, 29), ("fp".toList, 30), ("ra".toList, 31) ]

/-- 30_encoding.md R55: the index a register name (without its `$`) resolves to: a numeral, or an alias spelled exactly
as listed. -/
def resolveName (name : Text) : Option RegIdx :=
  match numeralIndex name with
  | some i => some i
  | none => (aliasTable.find? fun e => e.1 = name).map (·.2)

/-- A name with at most one leading `$` taken off (70_reset_and_hazards.md R109: "with or without the leading `$`"). -/
def dropDollar : Text → Text
  | '$' :: name => name
  | name => name

/-- The name of a mnemonic as the parser tables hold it (30_encoding.md R47, R53). -/
def mnemonicName : Mnemonic → Text
  | .add => "add".toList
  | .sub => "sub".toList
  | .and => "and".toList
  | .or => "or".toList
  | .slt => "slt".toList
  | .addi => "addi".toList
  | .lw => "lw".toList
  | .sw => "sw".toList
  | .beq => "beq".toList
  | .j => "j".toList

end Sys2Proof.Machine
end

