-- ==== Sys2Proof/Machine/Errors.lean ====
section
/-! DEFINITION. The four error kinds a boundary call can raise (60_exceptions.md R90). -/

namespace Sys2Proof.Machine

/-- The offending text or word of an `InstructionNotFoundError` (60_exceptions.md R90, "the text, or the 32-bit
word"). -/
inductive Offender where
  | text (t : Text)
  | word (w : Word)
  deriving DecidableEq, Repr

/-- 60_exceptions.md R90: the whole taxonomy. Every error is returned to the host and the call that raised it changes
nothing (00_scope.md R11, 60_exceptions.md R95). -/
inductive BoundaryError where
  /-- Raised by the assembler for a text it cannot spell and by `simulate` (and the runner, which calls it) for an
  illegal word (30_encoding.md R49, R54). Safe: the spec names this error there. -/
  | instructionNotFound (offender : Offender)
  /-- Raised by the assembler for a register token and by the host's `registers.read` for a name that does not resolve
  (30_encoding.md R55, 70_reset_and_hazards.md R109). Safe: the spec names this error there. -/
  | registerNotFound (token : Text)
  /-- Raised by the ALU in EXECUTE for the codes `101`, `110`, `111` and ⊥ (40_sequencer.md R62, R65). Safe: the spec
  names this error there; no run from reset reaches it. -/
  | unsupportedOperation (aluOp : Option (BitVec 3))
  /-- Raised by the codec for an integer `n` that does not fit `width` bits: assembler immediates, FETCH, EXECUTE (add
  and subtract, the lw and sw address included), a taken BRANCH (60_exceptions.md R90). Safe: the spec names this error
  there. -/
  | range (n : Int) (width : Nat)
  deriving DecidableEq, Repr

/-- 60_exceptions.md R90: the numeric code of each kind. -/
def BoundaryError.code : BoundaryError → Nat
  | .instructionNotFound _ => 1
  | .registerNotFound _ => 2
  | .unsupportedOperation _ => 3
  | .range _ _ => 4

end Sys2Proof.Machine
end

