-- ==== Sys2Proof/Machine/Codec.lean ====
section
/-! DEFINITION. The fixed-width two's-complement codec (30_encoding.md R36 to R39) and the bit-strings it produces. -/

namespace Sys2Proof.Machine

/-- 30_encoding.md R36: signed encode. It fails outside the range and never saturates or wraps. (R36 speaks of widths
`w ≥ 1`; the model's own reading at width 0 is in notes/assumptions/19.md.) -/
def encS (n : Int) (w : Nat) : Except BoundaryError (BitVec w) :=
  if -((2 ^ (w - 1) : Nat) : Int) ≤ n ∧ n ≤ ((2 ^ (w - 1) : Nat) : Int) - 1 then .ok (BitVec.ofInt w n)
  else .error (.range n w)

/-- 30_encoding.md R37: signed decode, `s(v)`. -/
def decS {w : Nat} (v : BitVec w) : Int := v.toInt

/-- 30_encoding.md R38: unsigned encode. -/
def encU (n : Int) (w : Nat) : Except BoundaryError (BitVec w) :=
  if 0 ≤ n ∧ n ≤ ((2 ^ w : Nat) : Int) - 1 then .ok (BitVec.ofInt w n)
  else .error (.range n w)

/-- 30_encoding.md R39: unsigned decode, `u(v)`. -/
def decU {w : Nat} (v : BitVec w) : Nat := v.toNat

/-- 00_scope.md R8: the bit-string `v` as characters `0` and `1`, most-significant bit first. -/
def bitString {n : Nat} (v : BitVec n) : Text :=
  (List.range n).reverse.map fun i => if v.getLsbD i then '1' else '0'

end Sys2Proof.Machine
end

