-- ==== Sys2Proof/Machine/Control.lean ====
section
/-! DEFINITION. The control-signal record (10_state.md R20, R21), the clock-phase kinds (40_sequencer.md R66) and the
lines each phase asserts (R67 to R73). -/

namespace Sys2Proof.Machine

/-- 40_sequencer.md R66: the seven phase kinds. -/
inductive PhaseKind where
  | fetch
  | execute
  | aluWriteback
  | memRead
  | memWrite
  | branch
  | jump
  deriving DecidableEq, Repr

/-- 10_state.md R20: the twelve control lines. A select holds a bit-string of its width or ⊥ (`none`); an enable holds
one bit. -/
structure Ctrl where
  aluSelA : Option (BitVec 1)
  aluSelB : Option (BitVec 2)
  aluOp : Option (BitVec 3)
  memRead : BitVec 1
  memWrite : BitVec 1
  iOrD : Option (BitVec 1)
  regWrite : BitVec 1
  regDst : Option (BitVec 1)
  memToReg : Option (BitVec 1)
  pcWrite : BitVec 1
  pcWriteCond : BitVec 1
  pcSource : Option (BitVec 2)
  deriving DecidableEq, Repr

/-- 10_state.md R20, R21: the inert record, the last column of R20. -/
def Ctrl.inert : Ctrl :=
  { aluSelA := none, aluSelB := none, aluOp := none, memRead := 0, memWrite := 0, iOrD := none, regWrite := 0,
    regDst := none, memToReg := none, pcWrite := 0, pcWriteCond := 0, pcSource := none }

/-- The names of the lines, for the host's `control.<signalName>` (10_state.md R20, 70_reset_and_hazards.md R109). -/
inductive CtrlLine where
  | aluSelA
  | aluSelB
  | aluOp
  | memRead
  | memWrite
  | iOrD
  | regWrite
  | regDst
  | memToReg
  | pcWrite
  | pcWriteCond
  | pcSource
  deriving DecidableEq, Repr

/-- The value of one line as the host reads it: its bit-string, or ⊥ (10_state.md R20). -/
def Ctrl.read (c : Ctrl) : CtrlLine → Option Text
  | .aluSelA => c.aluSelA.map bitString
  | .aluSelB => c.aluSelB.map bitString
  | .aluOp => c.aluOp.map bitString
  | .memRead => some (bitString c.memRead)
  | .memWrite => some (bitString c.memWrite)
  | .iOrD => c.iOrD.map bitString
  | .regWrite => some (bitString c.regWrite)
  | .regDst => c.regDst.map bitString
  | .memToReg => c.memToReg.map bitString
  | .pcWrite => some (bitString c.pcWrite)
  | .pcWriteCond => some (bitString c.pcWriteCond)
  | .pcSource => c.pcSource.map bitString

/-- 40_sequencer.md R62: the ALU's operations. -/
inductive AluOp where
  | add
  | sub
  | and
  | or
  | slt
  deriving DecidableEq, Repr

/-- 10_state.md R20, line `aluOp`; 40_sequencer.md R62: the code of each operation. -/
def AluOp.code : AluOp → BitVec 3
  | .add => 0b000
  | .sub => 0b001
  | .and => 0b010
  | .or => 0b011
  | .slt => 0b100

/-- What ALU operand B is (40_sequencer.md R64). -/
inductive AluSrcB where
  | register
  | immediate
  deriving DecidableEq, Repr

/-- 10_state.md R20, line `aluSelB`: `00` selects `x[rd]`, `10` the sign-extended immediate. -/
def AluSrcB.code : AluSrcB → BitVec 2
  | .register => 0b00
  | .immediate => 0b10

/-- The two ALU lines EXECUTE sets for an instruction (40_sequencer.md R68); `aluSelA` is always 1. -/
structure AluLines where
  srcB : AluSrcB
  op : AluOp
  deriving DecidableEq, Repr

/-- 40_sequencer.md R67: FETCH. -/
def fetchCtrl : Ctrl := { Ctrl.inert with pcWrite := 1, pcSource := some 0b00 }

/-- 40_sequencer.md R68: EXECUTE. `none`: the word's instruction has no ALU lines (beq, j), so `aluSelB` and `aluOp`
stay ⊥ (notes/assumptions/11.md; no run from reset gets there). -/
def executeCtrl (l : Option AluLines) : Ctrl :=
  { Ctrl.inert with aluSelA := some 1, aluSelB := l.map (·.srcB.code), aluOp := l.map (·.op.code) }

/-- 40_sequencer.md R69: ALU_WRITEBACK re-asserts the three ALU lines exactly as EXECUTE set them. -/
def aluWritebackCtrl (l : Option AluLines) : Ctrl :=
  { executeCtrl l with regWrite := 1, regDst := some 0, memToReg := some 0 }

/-- 40_sequencer.md R70: MEM_READ. -/
def memReadCtrl : Ctrl :=
  { Ctrl.inert with memRead := 1, iOrD := some 1, regWrite := 1, regDst := some 0, memToReg := some 1 }

/-- 40_sequencer.md R71: MEM_WRITE. -/
def memWriteCtrl : Ctrl := { Ctrl.inert with memWrite := 1, iOrD := some 1 }

/-- 40_sequencer.md R72: BRANCH. -/
def branchCtrl : Ctrl := { Ctrl.inert with pcWriteCond := 1, pcSource := some 0b01 }

/-- 40_sequencer.md R73: JUMP. -/
def jumpCtrl : Ctrl := { Ctrl.inert with pcWrite := 1, pcSource := some 0b10 }

/-- The lines phase `p` asserts, given the ALU lines of the current word; "they depend only on p and cur"
(40_sequencer.md R66). -/
def phaseCtrl (p : PhaseKind) (l : Option AluLines) : Ctrl :=
  match p with
  | .fetch => fetchCtrl
  | .execute => executeCtrl l
  | .aluWriteback => aluWritebackCtrl l
  | .memRead => memReadCtrl
  | .memWrite => memWriteCtrl
  | .branch => branchCtrl
  | .jump => jumpCtrl

end Sys2Proof.Machine
end

