-- ==== Sys2Proof/Machine/Flags.lean ====
section
/-! DEFINITION. The conditions the core tests. It has no status flags or condition codes (10_state.md R24): the branch
comparator's answer is not held, and overflow is an error of the codec (40_sequencer.md R63), not a flag. -/

namespace Sys2Proof.Machine

/-- 40_sequencer.md R72: the branch's equality comparator, bit by bit (00_scope.md R10). -/
def wordsEqual (a b : Word) : Bool := a == b

/-- 40_sequencer.md R62: set-less-than's condition, on the signed readings. -/
def signedLess (a b : Word) : Bool := decide (a.toInt < b.toInt)

end Sys2Proof.Machine
end

