-- ==== Sys2Proof/Machine/Alu.lean ====
section
/-! DEFINITION. The combinational ALU (40_sequencer.md R62, R63, R65). -/

namespace Sys2Proof.Machine

/-- 40_sequencer.md R62: the operation a code selects. `101`, `110`, `111` and ⊥ select none (R65). -/
def aluOpOfCode : Option (BitVec 3) → Option AluOp
  | none => none
  | some c =>
    if c = 0b000#3 then some .add
    else if c = 0b001#3 then some .sub
    else if c = 0b010#3 then some .and
    else if c = 0b011#3 then some .or
    else if c = 0b100#3 then some .slt
    else none

/-- 40_sequencer.md R62, R63: the result of an operation. Add and subtract produce it through the codec, so a result
outside the signed range raises `RangeError`. -/
def aluApply (op : AluOp) (a b : Word) : Except BoundaryError Word :=
  match op with
  | .add => encS (a.toInt + b.toInt) 32
  | .sub => encS (a.toInt - b.toInt) 32
  | .and => .ok (a &&& b)
  | .or => .ok (a ||| b)
  | .slt => if signedLess a b then encS 1 32 else encS 0 32

/-- 40_sequencer.md R62: `compute(operandA, operandB, opCode)`. The code is checked before the arithmetic
(60_exceptions.md R94). -/
def aluCompute (code : Option (BitVec 3)) (a b : Word) : Except BoundaryError Word :=
  match aluOpOfCode code with
  | none => .error (.unsupportedOperation code)
  | some op => aluApply op a b

end Sys2Proof.Machine
end

