-- ==== Sys2Proof/WellFormed.lean ====
section
/-! DEFINITION. What is well formed. The operands of an `Instr` fit their fields by their types (`Fin 32`,
`BitVec 16`, `BitVec 26`), so every term of `Instr` is well formed and no check on terms is left. What can be ill formed
is a 32-bit WORD: the check below is the opcode table's, and Tests/Slice0.lean shows a refused word for each part of it
(opcode, funct, shamt). -/

namespace Sys2Proof

/-- One row of 30_encoding.md R47: the bits a word must have (`pattern`) where `mask` has ones. -/
structure OpcodeRow where
  mnemonic : Mnemonic
  mask : Word
  pattern : Word
  deriving DecidableEq, Repr

/-- 30_encoding.md R47, columns "match" and "mask". -/
def opcodeTable : List OpcodeRow :=
  [ ⟨.add, 0xFC0007FF, 0x00000000⟩,
    ⟨.sub, 0xFC0007FF, 0x00000022⟩,
    ⟨.and, 0xFC0007FF, 0x00000024⟩,
    ⟨.or, 0xFC0007FF, 0x00000025⟩,
    ⟨.slt, 0xFC0007FF, 0x0000002A⟩,
    ⟨.addi, 0xFC000000, 0x20000000⟩,
    ⟨.lw, 0xFC000000, 0x8C000000⟩,
    ⟨.sw, 0xFC000000, 0xAC000000⟩,
    ⟨.beq, 0xFC000000, 0x10000000⟩,
    ⟨.j, 0xFC000000, 0x08000000⟩ ]

/-- A word is matched by a row (30_encoding.md R49). -/
def OpcodeRow.matchesWord (r : OpcodeRow) (w : Word) : Bool :=
  w &&& r.mask == r.pattern

/-- 30_encoding.md R49: the word spells an instruction iff a row of the table matches it. -/
def legalWord (w : Word) : Bool :=
  opcodeTable.any fun r => r.matchesWord w

end Sys2Proof
end

