-- ==== Sys2Proof/Decode.lean ====
section
/-! DEFINITION. The decoder (30_encoding.md R48 to R51), total on 32-bit words and rejecting by name, and after it the
encoder (R41 to R43, R47, R58). -/

namespace Sys2Proof

/-- Why a word spells no instruction. The spec has one outcome, `Illegal` (30_encoding.md R48); the three names say
which of its conditions failed first (notes/assumptions/13.md). -/
inductive Illegal where
  /-- Safe: opcode is none of the six admitted ones (30_encoding.md R49). -/
  | unlistedOpcode (op : BitVec 6)
  /-- Safe: an R-type word whose shamt is not `00000` (30_encoding.md R50). -/
  | nonzeroShamt (shamt : BitVec 5)
  /-- Safe: an R-type word whose funct is none of the five admitted ones (30_encoding.md R49). -/
  | unlistedFunct (funct : BitVec 6)
  deriving DecidableEq, Repr

/-- A 5-bit field read as a register index, `u(field)` (30_encoding.md R46). -/
def regOfBits (v : BitVec 5) : RegIdx := ⟨v.toNat, v.isLt⟩

/-- A register index as its 5-bit field, `enc_u(i, 5)` (30_encoding.md R40). -/
def regBits (i : RegIdx) : BitVec 5 := BitVec.ofNat 5 i.val

/-- Bits 31:26. -/
def opcodeOf (w : Word) : BitVec 6 := w.extractLsb' 26 6
/-- Bits 25:21, the destination, stored or first compared register (30_encoding.md R45). -/
def rsOf (w : Word) : RegIdx := regOfBits (w.extractLsb' 21 5)
/-- Bits 20:16, ALU operand A, the base or the second compared register. -/
def rtOf (w : Word) : RegIdx := regOfBits (w.extractLsb' 16 5)
/-- Bits 15:11, ALU operand B of the R format. -/
def rdOf (w : Word) : RegIdx := regOfBits (w.extractLsb' 11 5)
/-- Bits 10:6 (30_encoding.md R50). -/
def shamtOf (w : Word) : BitVec 5 := w.extractLsb' 6 5
/-- Bits 5:0. -/
def functOf (w : Word) : BitVec 6 := w.extractLsb' 0 6
/-- Bits 15:0. -/
def imm16Of (w : Word) : BitVec 16 := w.extractLsb' 0 16
/-- Bits 25:0. -/
def addr26Of (w : Word) : BitVec 26 := w.extractLsb' 0 26

/-- The R-type row of 30_encoding.md R47 whose funct is `w[5:0]`. -/
def decodeFunct (w : Word) : Except Illegal Instr :=
  if functOf w = 0b000000#6 then .ok (.add (rsOf w) (rtOf w) (rdOf w))
  else if functOf w = 0b100010#6 then .ok (.sub (rsOf w) (rtOf w) (rdOf w))
  else if functOf w = 0b100100#6 then .ok (.and (rsOf w) (rtOf w) (rdOf w))
  else if functOf w = 0b100101#6 then .ok (.or (rsOf w) (rtOf w) (rdOf w))
  else if functOf w = 0b101010#6 then .ok (.slt (rsOf w) (rtOf w) (rdOf w))
  else .error (.unlistedFunct (functOf w))

/-- 30_encoding.md R48: the decoder. The opcode alone chooses the format (R44); an R-type word needs shamt `00000`
(R50). -/
def decode (w : Word) : Except Illegal Instr :=
  if opcodeOf w = 0b000000#6 then
    if shamtOf w = 0b00000#5 then decodeFunct w else .error (.nonzeroShamt (shamtOf w))
  else if opcodeOf w = 0b001000#6 then .ok (.addi (rsOf w) (rtOf w) (imm16Of w))
  else if opcodeOf w = 0b100011#6 then .ok (.lw (rsOf w) (rtOf w) (imm16Of w))
  else if opcodeOf w = 0b101011#6 then .ok (.sw (rsOf w) (rtOf w) (imm16Of w))
  else if opcodeOf w = 0b000100#6 then .ok (.beq (rsOf w) (rtOf w) (imm16Of w))
  else if opcodeOf w = 0b000010#6 then .ok (.j (addr26Of w))
  else .error (.unlistedOpcode (opcodeOf w))

/-- 30_encoding.md R48: the record of a decoded word, "of which each family uses the fields of its format". -/
structure Decoded where
  mnemonic : Mnemonic
  format : Format
  rs : RegIdx
  rt : RegIdx
  rd : RegIdx
  shamt : BitVec 5
  funct : BitVec 6
  imm16 : BitVec 16
  addr26 : BitVec 26
  word : Word
  deriving DecidableEq, Repr

/-- 30_encoding.md R48: the decoded record of a legal word. -/
def decodedRecord (w : Word) : Except Illegal Decoded :=
  (decode w).map fun i =>
    { mnemonic := i.mnemonic, format := i.mnemonic.format, rs := rsOf w, rt := rtOf w, rd := rdOf w,
      shamt := shamtOf w, funct := functOf w, imm16 := imm16Of w, addr26 := addr26Of w, word := w }

/-- The R-type layout of 30_encoding.md R41, with opcode `000000` and shamt `00000`. -/
def encodeR (funct : BitVec 6) (rs rt rd : RegIdx) : Word :=
  0b000000#6 ++ regBits rs ++ regBits rt ++ regBits rd ++ 0b00000#5 ++ funct

/-- The I-type layout of 30_encoding.md R42. -/
def encodeI (opcode : BitVec 6) (rs rt : RegIdx) (imm16 : BitVec 16) : Word :=
  opcode ++ regBits rs ++ regBits rt ++ imm16

/-- The J-type layout of 30_encoding.md R43. -/
def encodeJ (opcode : BitVec 6) (addr26 : BitVec 26) : Word :=
  opcode ++ addr26

/-- The word of an instruction (30_encoding.md R47, R58). -/
def encode : Instr → Word
  | .add rs rt rd => encodeR 0b000000#6 rs rt rd
  | .sub rs rt rd => encodeR 0b100010#6 rs rt rd
  | .and rs rt rd => encodeR 0b100100#6 rs rt rd
  | .or rs rt rd => encodeR 0b100101#6 rs rt rd
  | .slt rs rt rd => encodeR 0b101010#6 rs rt rd
  | .addi rs rt imm16 => encodeI 0b001000#6 rs rt imm16
  | .lw rs rt imm16 => encodeI 0b100011#6 rs rt imm16
  | .sw rs rt imm16 => encodeI 0b101011#6 rs rt imm16
  | .beq rs rt imm16 => encodeI 0b000100#6 rs rt imm16
  | .j addr26 => encodeJ 0b000010#6 addr26

/-- The 32-bit word whose low `nbits` bits are those of `w` and whose other bits are 0. -/
def tableWord (nbits w : Nat) : Word := BitVec.ofNat 32 (w % 2 ^ nbits)

/-- The instruction the decoder reads from an instruction whose bits are `w`, numbered as spec/opcode_table.json
numbers them (bit 0 is the word's least significant bit; one word, 30_encoding.md R44). -/
def decodeTableWord (nbits w : Nat) : Option Instr :=
  (decode (tableWord nbits w)).toOption

end Sys2Proof
end

