-- ==== Sys2Proof/Machine/Operands.lean ====
section
/-! DEFINITION. Operand and target assembly (30_encoding.md R46), and the ALU lines and phase sequence of each
instruction (40_sequencer.md R68, R74). -/

namespace Sys2Proof.Machine

/-- 00_scope.md R7, `PC_STEP`. -/
def pcStep : Int := 4

/-- 30_encoding.md R46: `simm`, the immediate sign-extended to 32 bits; ALU operand B of addi, lw and sw. -/
def simm (imm16 : BitVec 16) : Word := imm16.signExtend 32

/-- 40_sequencer.md R67: the exact integer FETCH advances the pc to. -/
def incrementedPc (pc : Word) : Int := (pc.toNat : Int) + pcStep

/-- 40_sequencer.md R72: the exact branch target, from the pc FETCH left. -/
def branchTarget (pc : Word) (imm16 : BitVec 16) : Int := (pc.toNat : Int) + 4 * imm16.toInt

/-- 40_sequencer.md R73: `pc[31:28] ++ addr26 ++ 00`, from the pc FETCH left. -/
def jumpTarget (pc : Word) (addr26 : BitVec 26) : Word := pc.extractLsb' 28 4 ++ addr26 ++ 0b00#2

/-- 40_sequencer.md R68: what EXECUTE sets on the ALU lines for an instruction; beq and j have no EXECUTE phase. -/
def aluLinesOf : Instr → Option AluLines
  | .add _ _ _ => some ⟨.register, .add⟩
  | .sub _ _ _ => some ⟨.register, .sub⟩
  | .and _ _ _ => some ⟨.register, .and⟩
  | .or _ _ _ => some ⟨.register, .or⟩
  | .slt _ _ _ => some ⟨.register, .slt⟩
  | .addi _ _ _ => some ⟨.immediate, .add⟩
  | .lw _ _ _ => some ⟨.immediate, .add⟩
  | .sw _ _ _ => some ⟨.immediate, .add⟩
  | .beq _ _ _ => none
  | .j _ => none

/-- The ALU lines of a word: those of the instruction it spells, none for a word that spells none
(notes/assumptions/11.md; `cur` never holds such a word). -/
def wordAluLines (w : Word) : Option AluLines :=
  match decode w with
  | .ok i => aluLinesOf i
  | .error _ => none

/-- 40_sequencer.md R74: the phase sequence of each instruction. -/
def phasesOf : Instr → List PhaseKind
  | .add _ _ _ => [.fetch, .execute, .aluWriteback]
  | .sub _ _ _ => [.fetch, .execute, .aluWriteback]
  | .and _ _ _ => [.fetch, .execute, .aluWriteback]
  | .or _ _ _ => [.fetch, .execute, .aluWriteback]
  | .slt _ _ _ => [.fetch, .execute, .aluWriteback]
  | .addi _ _ _ => [.fetch, .execute, .aluWriteback]
  | .lw _ _ _ => [.fetch, .execute, .memRead]
  | .sw _ _ _ => [.fetch, .execute, .memWrite]
  | .beq _ _ _ => [.fetch, .branch]
  | .j _ => [.fetch, .jump]

end Sys2Proof.Machine
end

