-- ==== Sys2Proof/Machine/Memory.lean ====
section
/-! DEFINITION. The data memory (20_memory.md R26 to R30): a finite insertion-ordered map from address Words to value
Words, with the operations over it. -/

namespace Sys2Proof.Machine

/-- 10_state.md R12, 20_memory.md R26: the entries, in insertion order. The canonical form `Memory.wf` is that no two
entries have one address; the order and the entries that hold zero are part of the state (R28, R30), so two memories
are the same memory iff their lists are equal (notes/assumptions/9.md). -/
structure Memory where
  cells : List (Word × Word)
  deriving DecidableEq, Repr

/-- 70_reset_and_hazards.md R105: the memory at creation. -/
def Memory.empty : Memory := ⟨[]⟩

/-- 20_memory.md R30: the addresses of the entries, in insertion order. -/
def Memory.addresses (m : Memory) : List Word := m.cells.map (·.1)

/-- The canonical form: "Keys are unique" (20_memory.md R26). -/
abbrev Memory.wf (m : Memory) : Prop := m.addresses.Nodup

/-- The Word of the entry at `a`, if there is one. -/
def cellAt : List (Word × Word) → Word → Option Word
  | [], _ => none
  | (k, v) :: rest, a => if k = a then some v else cellAt rest a

/-- The entries after `set(a, v)` (20_memory.md R28): an existing entry keeps its position, a new one is appended. -/
def cellsSet : List (Word × Word) → Word → Word → List (Word × Word)
  | [], a, v => [(a, v)]
  | (k, x) :: rest, a, v => if k = a then (k, v) :: rest else (k, x) :: cellsSet rest a v

/-- What an address with no entry reads as: the zero Word (20_memory.md R27, 90_conflicts.md C6). -/
def unlistedWord : Word := 0

/-- The entry at `a`, if there is one. -/
def Memory.find? (m : Memory) (a : Word) : Option Word := cellAt m.cells a

/-- 20_memory.md R27: `get(a)`, `MemRead(a, 1)`; it never fails. -/
def Memory.get (m : Memory) (a : Word) : Word := (m.find? a).getD unlistedWord

/-- 20_memory.md R28: `set(a, v)`, `MemWrite(a, 1, v)`. -/
def Memory.set (m : Memory) (a v : Word) : Memory := ⟨cellsSet m.cells a v⟩

/-- 20_memory.md R29: `destroy(a)`; destroying an absent address changes nothing. -/
def Memory.destroy (m : Memory) (a : Word) : Memory := ⟨m.cells.filter fun c => c.1 ≠ a⟩

end Sys2Proof.Machine
end

