-- ==== Sys2Proof/Config.lean ====
section
/-! DEFINITION. The implementation parameters of 00_scope.md R7 that the spec leaves OPEN. -/

namespace Sys2Proof

/-- 00_scope.md R7: the three OPEN parameters. The other rows of R7 are fixed: `W = 32` is in `Word`,
the 32 registers in `RegIdx`, `PC_STEP` in Machine/Operands.lean, empty memory in `State.resetFor`. -/
structure Params where
  /-- 10_state.md R15: whether register 0 always reads zero. -/
  zeroHardwired : Bool
  /-- 10_state.md R18: `regInit`, the register values at creation. -/
  regInit : Vector Word 32
  /-- 10_state.md R19: `pcInit`, the program counter at creation. -/
  pcInit : Word
  deriving DecidableEq, Repr

end Sys2Proof
end

