-- ==== Sys2Proof/Machine/ResetValues.lean ====
section
/-! DEFINITION. The values the model gives the OPEN parameters for its own `State.reset`. -/

namespace Sys2Proof.Machine

/-- DESIGN CHOICE, unsafe (notes/assumptions/1.md, 2.md, 3.md): the spec leaves all three OPEN (10_state.md R15, R18,
R19). Register 0 is ordinary storage, every register and the pc hold zero. `State.resetFor` takes any other values. -/
def resetParams : Params :=
  { zeroHardwired := false, regInit := Vector.replicate 32 0, pcInit := 0 }

end Sys2Proof.Machine
end

