-- ==== Sys2Proof/Machine/State.lean ====
section
/-! DEFINITION. The machine's state, the reasons a step can stop, and the state after reset. -/

namespace Sys2Proof.Machine

/-- 70_reset_and_hazards.md R109: the nine calls of the boundary interface. -/
inductive HostCall where
  | simulate (word : Word)
  | nextClock
  | registersRead (name : Text)
  | memoryAddresses
  | memoryGet (addr : Word)
  | memorySet (addr value : Word)
  | memoryDestroy (addr : Word)
  | aluResult
  | control (line : CtrlLine)
  deriving DecidableEq, Repr

/-- 70_reset_and_hazards.md R110: the runner's program image, "a finite map from address Words to instruction words".
The host holds it, or it is held in the core's own memory. -/
inductive Program where
  | held (image : Memory)
  | inMemory
  deriving DecidableEq, Repr

/-- 10_state.md R12: the seven elements of the core's state (`regs` to `cur`), then the OPEN parameter that register
accesses read, then the host's side. -/
structure State where
  /-- 10_state.md R13: the 32 general registers. Read and written through `State.x` and `State.setX` only. -/
  regs : Vector Word 32
  /-- 20_memory.md R26. -/
  mem : Memory
  /-- 10_state.md R22; `none` is ⊥. -/
  aluResult : Option Word
  /-- 10_state.md R20, R21. -/
  ctrl : Ctrl
  /-- 10_state.md R19. -/
  pc : Word
  /-- 10_state.md R23: the phases still to execute for `cur`. -/
  queue : List PhaseKind
  /-- 10_state.md R23: the word of the instruction the queue belongs to; `none` is ⊥. -/
  cur : Option Word
  /-- 10_state.md R15: the OPEN parameter, a constant of the machine: no step changes it (notes/assumptions/3.md). -/
  zeroHardwired : Bool
  /-- The host's side, the model's own field: boundary calls the host has scheduled, oldest first
  (notes/assumptions/4.md). -/
  calls : List HostCall
  /-- The host's side, the model's own field: the image the reference runner runs (notes/assumptions/5.md). -/
  program : Program
  deriving DecidableEq, Repr

/-- The slots that can hold ⊥ and that phases read (10_state.md R22, R23). -/
inductive Slot where
  | cur
  | aluResult
  deriving DecidableEq, Repr

/-- Why a step stops. `kept` is the state the host is left with: the state before the failing boundary call, with the
effects of every phase that had completed (00_scope.md R11, 60_exceptions.md R91, R95). -/
inductive Fault where
  /-- Raised by any boundary call, by one of the four errors of 60_exceptions.md R90. Safe: the spec names the error and
  the state; the model's run ends there, where the host could go on from `kept` (notes/assumptions/7.md). -/
  | raised (error : BoundaryError) (kept : State)
  /-- Raised by a phase that reads a slot holding ⊥, to which no rule gives an effect. Safe: the model stops, and no run
  from reset gets there (10_state.md R22, 40_sequencer.md R74; notes/assumptions/10.md). -/
  | undefinedSlot (slot : Slot) (kept : State)
  deriving DecidableEq, Repr

/-- Why an instruction has no meaning. -/
inductive Refusal where
  /-- Raised by no arm of `exec`: every instruction has its meaning. Safe. -/
  | notModelled (mnemonic : String)
  deriving DecidableEq, Repr

/-- 70_reset_and_hazards.md R104, R105: the state after reset (the core's creation), for any values of the OPEN
parameters. The host has scheduled nothing and its runner has no program (R106). -/
def State.resetFor (p : Params) : State :=
  { regs := p.regInit, mem := Memory.empty, aluResult := none, ctrl := Ctrl.inert, pc := p.pcInit, queue := [],
    cur := none, zeroHardwired := p.zeroHardwired, calls := [], program := .held Memory.empty }

/-- The state after reset, with the model's values of the OPEN parameters (notes/assumptions/1.md, 2.md, 3.md). -/
def State.reset : State := State.resetFor resetParams

end Sys2Proof.Machine
end

