-- ==== Sys2Proof/Machine/Ops.lean ====
section
/-! DEFINITION. The operations every meaning is built from: registers, memory, raising an error, and the seven clock
phases (40_sequencer.md R66 to R73). -/

namespace Sys2Proof.Machine

/-- What a boundary call, a phase or an instruction ends in. -/
abbrev Result := Host.Outcome State Fault Refusal

/-- Do `f` in the state `r` completed in; a stop stays a stop. -/
def andThen (r : Result) (f : State → Result) : Result :=
  match r with
  | .next s => f s
  | .fault e => .fault e
  | .refused e => .refused e

/-- 10_state.md R15, R16: `x[i]`, the datapath read of register `i`. -/
def State.x (s : State) (i : RegIdx) : Word :=
  if s.zeroHardwired && i == 0 then 0 else s.regs[i]

/-- 10_state.md R15, R17: `x[i] <- v`, the datapath write; discarded for register 0 when it is hardwired. -/
def State.setX (s : State) (i : RegIdx) (v : Word) : State :=
  if s.zeroHardwired && i == 0 then s else { s with regs := s.regs.set i v }

/-- 20_memory.md R27: `MemRead(a, 1)`. -/
def State.memRead (s : State) (a : Word) : Word := s.mem.get a

/-- 20_memory.md R28: `MemWrite(a, 1, v)`. -/
def State.memWrite (s : State) (a v : Word) : State := { s with mem := s.mem.set a v }

/-- 60_exceptions.md R89, R95: raising an error, the only "exception" this core takes. It saves nothing and changes
nothing: the error goes to the host and the state stays as it was before the call. There is no handler and no return
from one (R96). -/
def raise (e : BoundaryError) (s : State) : Result := .fault (.raised e s)

/-- The model's stop for a phase that reads a slot holding ⊥ (notes/assumptions/10.md). -/
def stopUndefined (slot : Slot) (s : State) : Result := .fault (.undefinedSlot slot s)

/-- 40_sequencer.md R66: the phase frame. `update` is the phase's one state update on `s`. If it raises, `s` is
unchanged; else the lines `c` are the whole record, the update stands and the head leaves the queue. -/
def phaseFrame (c : Ctrl) (update : Except BoundaryError State) (s : State) : Result :=
  match update with
  | .error e => raise e s
  | .ok t => .next { t with ctrl := c, queue := s.queue.tail }

/-- 40_sequencer.md R67: FETCH. It reads no memory. -/
def fetchPhase (s : State) : Result :=
  phaseFrame fetchCtrl ((encU (incrementedPc s.pc) 32).map fun t => { s with pc := t }) s

/-- 40_sequencer.md R68: EXECUTE on operands `a` and `b`. -/
def executePhase (l : Option AluLines) (a b : Word) (s : State) : Result :=
  phaseFrame (executeCtrl l)
    ((aluCompute (l.map (·.op.code)) a b).map fun v => { s with aluResult := some v }) s

/-- Give a phase the Word in `aluResult`. -/
def withAluResult (s : State) (f : Word → Result) : Result :=
  match s.aluResult with
  | none => stopUndefined .aluResult s
  | some v => f v

/-- 40_sequencer.md R69: ALU_WRITEBACK into register `rs`. The ALU is not invoked again. -/
def aluWritebackPhase (l : Option AluLines) (rs : RegIdx) (s : State) : Result :=
  withAluResult s fun v => phaseFrame (aluWritebackCtrl l) (.ok (s.setX rs v)) s

/-- 40_sequencer.md R70: MEM_READ into register `rs`. -/
def memReadPhase (rs : RegIdx) (s : State) : Result :=
  withAluResult s fun a => phaseFrame memReadCtrl (.ok (s.setX rs (s.memRead a))) s

/-- 40_sequencer.md R71: MEM_WRITE from register `rs`. -/
def memWritePhase (rs : RegIdx) (s : State) : Result :=
  withAluResult s fun a => phaseFrame memWriteCtrl (.ok (s.memWrite a (s.x rs))) s

/-- 40_sequencer.md R72: BRANCH comparing registers `rs` and `rt`. -/
def branchPhase (rs rt : RegIdx) (imm16 : BitVec 16) (s : State) : Result :=
  phaseFrame branchCtrl
    (if wordsEqual (s.x rs) (s.x rt) then
      (encU (branchTarget s.pc imm16) 32).map fun t => { s with pc := t }
    else .ok s) s

/-- 40_sequencer.md R73: JUMP. -/
def jumpPhase (addr26 : BitVec 26) (s : State) : Result :=
  phaseFrame jumpCtrl (.ok { s with pc := jumpTarget s.pc addr26 }) s

/-- 40_sequencer.md R75: what `simulate` does with a word that spells `i`. Nothing else changes, and an unfinished
instruction's phases are discarded. -/
def accept (i : Instr) (s : State) : State :=
  { s with cur := some (encode i), queue := phasesOf i }

end Sys2Proof.Machine
end

