-- ==== Sys2Proof/Machine/Sequencer.lean ====
section
/-! DEFINITION. The control sequencer at the grain of one call: the phase at the head of the queue on the current word
(40_sequencer.md R66), `simulate` (R75) and `nextClock` (R76). -/

namespace Sys2Proof.Machine

/-- Give a phase the word in `cur`, which it reads its fields from (10_state.md R23). -/
def withCur (s : State) (f : Word → Result) : Result :=
  match s.cur with
  | none => stopUndefined .cur s
  | some w => f w

/-- 40_sequencer.md R64: operand A, the `rt` field's register. -/
def operandA (w : Word) (s : State) : Word := s.x (rtOf w)

/-- 40_sequencer.md R64: operand B, by the ALU lines: the sign-extended immediate when they select it, the `rd` field's
register otherwise. -/
def operandB (l : Option AluLines) (w : Word) (s : State) : Word :=
  if l.map (·.srcB) = some .immediate then simm (imm16Of w) else s.x (rdOf w)

/-- 40_sequencer.md R66: executing one phase. A kind is one function of the state and `cur`. -/
def runPhase (p : PhaseKind) (s : State) : Result :=
  match p with
  | .fetch => fetchPhase s
  | .execute => withCur s fun w => executePhase (wordAluLines w) (operandA w s) (operandB (wordAluLines w) w s) s
  | .aluWriteback => withCur s fun w => aluWritebackPhase (wordAluLines w) (rsOf w) s
  | .memRead => withCur s fun w => memReadPhase (rsOf w) s
  | .memWrite => withCur s fun w => memWritePhase (rsOf w) s
  | .branch => withCur s fun w => branchPhase (rsOf w) (rtOf w) (imm16Of w) s
  | .jump => withCur s fun w => jumpPhase (addr26Of w) s

/-- 40_sequencer.md R76: `nextClock()`. -/
def nextClock (s : State) : Result :=
  match s.queue with
  | [] => .next s
  | p :: _ => runPhase p s

/-- 40_sequencer.md R75: `simulate(word)`. An illegal word changes nothing (60_exceptions.md R92). -/
def simulate (w : Word) (s : State) : Result :=
  match decode w with
  | .error _ => raise (.instructionNotFound (.word w)) s
  | .ok i => .next { s with cur := some w, queue := phasesOf i }

/-- `k` calls of `nextClock`, stopping at the first error. -/
def clocks : Nat → State → Result
  | 0, s => .next s
  | k + 1, s => andThen (nextClock s) (clocks k)

/-- 70_reset_and_hazards.md R110: "while queue is not empty: nextClock()". Every completed call takes one phase off the
queue (40_sequencer.md R76), so the loop makes as many calls as the queue is long. -/
def retire (s : State) : Result := clocks s.queue.length s

end Sys2Proof.Machine
end

