-- ==== Sys2Proof/Machine/Boundary.lean ====
section
/-! DEFINITION. The boundary interface (70_reset_and_hazards.md R109): what each call does to the state and what it
returns to the host. -/

namespace Sys2Proof.Machine

/-- What a call that completes returns. -/
inductive Reply where
  | done
  | word (v : Word)
  | addresses (l : List Word)
  /-- `alu.result`: a Word or ⊥. -/
  | slot (v : Option Word)
  /-- `control.<signalName>`: a bit-string or ⊥. -/
  | line (v : Option Text)
  deriving DecidableEq, Repr

/-- `registers.read(nameOrAlias)`: the Word of the register the name resolves to. -/
def registersRead (s : State) (name : Text) : Except BoundaryError Word :=
  match resolveName (dropDollar name) with
  | some i => .ok (s.x i)
  | none => .error (.registerNotFound name)

/-- `memory.addresses()`. -/
def memoryAddresses (s : State) : List Word := s.mem.addresses

/-- `memory.get(addr)`. -/
def memoryGet (s : State) (addr : Word) : Word := s.mem.get addr

/-- `memory.set(addr, value)`. -/
def memorySet (addr value : Word) (s : State) : State := { s with mem := s.mem.set addr value }

/-- `memory.destroy(addr)`. -/
def memoryDestroy (addr : Word) (s : State) : State := { s with mem := s.mem.destroy addr }

/-- 70_reset_and_hazards.md R109: what a call does. The read accessors change nothing; `registers.read` of a name that
does not resolve raises. -/
def performCall (c : HostCall) (s : State) : Result :=
  match c with
  | .simulate w => simulate w s
  | .nextClock => nextClock s
  | .registersRead name =>
    match registersRead s name with
    | .ok _ => .next s
    | .error e => raise e s
  | .memoryAddresses => .next s
  | .memoryGet _ => .next s
  | .memorySet addr value => .next (memorySet addr value s)
  | .memoryDestroy addr => .next (memoryDestroy addr s)
  | .aluResult => .next s
  | .control _ => .next s

/-- 70_reset_and_hazards.md R109: what a call that completes in state `s` returns (notes/assumptions/17.md). -/
def replyOf (c : HostCall) (s : State) : Reply :=
  match c with
  | .simulate _ => .done
  | .nextClock => .done
  | .registersRead name =>
    match registersRead s name with
    | .ok v => .word v
    | .error _ => .done
  | .memoryAddresses => .addresses (memoryAddresses s)
  | .memoryGet addr => .word (memoryGet s addr)
  | .memorySet _ _ => .done
  | .memoryDestroy _ => .done
  | .aluResult => .slot s.aluResult
  | .control l => .line (s.ctrl.read l)

end Sys2Proof.Machine
end

