-- ==== Sys2Proof/Machine/AluImmediate.lean ====
section
/-! DEFINITION. addi (42_alu_immediate.md R84): submitted and clocked to retirement. -/

namespace Sys2Proof.Machine

/-- R84: FETCH, EXECUTE with operand A `x[rt]` and operand B the sign-extended immediate, ALU_WRITEBACK into `rs`. -/
def execAddi (rs rt : RegIdx) (imm16 : BitVec 16) (s : State) : Result :=
  andThen (fetchPhase (accept (.addi rs rt imm16) s)) fun s₁ =>
  andThen (executePhase (some ⟨.immediate, .add⟩) (s₁.x rt) (simm imm16) s₁) fun s₂ =>
  aluWritebackPhase (some ⟨.immediate, .add⟩) rs s₂

end Sys2Proof.Machine
end

