-- ==== Sys2Proof/Machine/AluRegister.lean ====
section
/-! DEFINITION. add, sub, and, or, slt (41_alu_register.md R79 to R83): submitted and clocked to retirement. -/

namespace Sys2Proof.Machine

/-- Common to the family (41_alu_register.md): FETCH, EXECUTE with operand A `x[rt]` and operand B `x[rd]`,
ALU_WRITEBACK into `rs`. Both operands are read before the write. -/
def aluRegister (i : Instr) (op : AluOp) (rs rt rd : RegIdx) (s : State) : Result :=
  andThen (fetchPhase (accept i s)) fun s₁ =>
  andThen (executePhase (some ⟨.register, op⟩) (s₁.x rt) (s₁.x rd) s₁) fun s₂ =>
  aluWritebackPhase (some ⟨.register, op⟩) rs s₂

/-- R79. -/
def execAdd (rs rt rd : RegIdx) (s : State) : Result := aluRegister (.add rs rt rd) .add rs rt rd s

/-- R80. -/
def execSub (rs rt rd : RegIdx) (s : State) : Result := aluRegister (.sub rs rt rd) .sub rs rt rd s

/-- R81. -/
def execAnd (rs rt rd : RegIdx) (s : State) : Result := aluRegister (.and rs rt rd) .and rs rt rd s

/-- R82. -/
def execOr (rs rt rd : RegIdx) (s : State) : Result := aluRegister (.or rs rt rd) .or rs rt rd s

/-- R83. -/
def execSlt (rs rt rd : RegIdx) (s : State) : Result := aluRegister (.slt rs rt rd) .slt rs rt rd s

end Sys2Proof.Machine
end

