-- ==== Sys2Proof/Machine/ControlTransfer.lean ====
section
/-! DEFINITION. beq and j (44_control_transfer.md R87, R88): submitted and clocked to retirement. -/

namespace Sys2Proof.Machine

/-- R87. -/
def execBeq (rs rt : RegIdx) (imm16 : BitVec 16) (s : State) : Result :=
  andThen (fetchPhase (accept (.beq rs rt imm16) s)) fun s₁ => branchPhase rs rt imm16 s₁

/-- R88. -/
def execJ (addr26 : BitVec 26) (s : State) : Result :=
  andThen (fetchPhase (accept (.j addr26) s)) fun s₁ => jumpPhase addr26 s₁

end Sys2Proof.Machine
end

