-- ==== Sys2Proof/Machine/LoadStore.lean ====
section
/-! DEFINITION. lw and sw (43_load_store.md R85, R86): submitted and clocked to retirement. -/

namespace Sys2Proof.Machine

/-- Common to the family (43_load_store.md): FETCH, then EXECUTE leaves the effective address `x[rt] + simm` in
`aluResult`. -/
def addressPhases (i : Instr) (rt : RegIdx) (imm16 : BitVec 16) (s : State) : Result :=
  andThen (fetchPhase (accept i s)) fun s₁ =>
  executePhase (some ⟨.immediate, .add⟩) (s₁.x rt) (simm imm16) s₁

/-- R85. -/
def execLw (rs rt : RegIdx) (imm16 : BitVec 16) (s : State) : Result :=
  andThen (addressPhases (.lw rs rt imm16) rt imm16 s) fun s₂ => memReadPhase rs s₂

/-- R86. -/
def execSw (rs rt : RegIdx) (imm16 : BitVec 16) (s : State) : Result :=
  andThen (addressPhases (.sw rs rt imm16) rt imm16 s) fun s₂ => memWritePhase rs s₂

end Sys2Proof.Machine
end

