-- ==== Sys2Proof/Machine/Runner.lean ====
section
/-! DEFINITION. The reference host runner (70_reset_and_hazards.md R110): where it takes the next instruction word from,
and one turn of its loop. -/

namespace Sys2Proof.Machine

/-- 70_reset_and_hazards.md R110: the image the runner reads: the host's own, or the core's memory. -/
def programImage (s : State) : Memory :=
  match s.program with
  | .held image => image
  | .inMemory => s.mem

/-- 70_reset_and_hazards.md R110: `prog[pc]`; none if `pc` is not a key of the image. -/
def fetchWord (s : State) : Option Word := (programImage s).find? s.pc

/-- 70_reset_and_hazards.md R110: `simulate(w)`, then `nextClock()` until the queue is empty. An illegal word raises
`InstructionNotFoundError`; the instruction a legal word spells runs to retirement, which is its meaning
(notes/assumptions/6.md; an obligation states that `exec` is those calls). -/
def runWord (w : Word) (s : State) : Result :=
  match decode w with
  | .error _ => raise (.instructionNotFound (.word w)) s
  | .ok i => exec i s

/-- 70_reset_and_hazards.md R110: one turn of the runner's loop. When `pc` is not a key of the image the run has ended;
the core idles and keeps its state (60_exceptions.md R103; notes/assumptions/4.md). -/
def runnerTurn (s : State) : Result :=
  match fetchWord s with
  | none => .next s
  | some w => runWord w s

/-- The state with `w` put where the runner takes its next word from, and no boundary call scheduled before it
(notes/assumptions/5.md). -/
def placeWord (w : Word) (s : State) : State :=
  match s.program with
  | .held image => { s with calls := [], program := .held (image.set s.pc w) }
  | .inMemory => { s with calls := [], mem := s.mem.set s.pc w }

end Sys2Proof.Machine
end

