-- ==== Sys2Proof/Machine/Step.lean ====
section
/-! DEFINITION. One step: the next boundary call the host has scheduled, or one turn of the reference runner. -/

namespace Sys2Proof.Machine

/-- The core "does nothing on its own: every change of its state is caused by one call on its boundary" (00_scope.md R2).
A step is the oldest scheduled call (70_reset_and_hazards.md R108, R109); with none scheduled, one turn of the reference
host runner (R110), which submits the word at `pc` and clocks it to retirement, or nothing when there is no such word
(notes/assumptions/4.md). -/
def step (s : State) : Host.Outcome State Fault Refusal :=
  match s.calls with
  | c :: rest => performCall c { s with calls := rest }
  | [] => runnerTurn s

/-- `s` with the instruction whose bits are `w` (numbered as spec/opcode_table.json numbers them, the bits above `nbits`
zero) where the next step takes its instruction from (notes/assumptions/5.md). -/
def State.withFetchWord (s : State) (nbits w : Nat) : State := placeWord (tableWord nbits w) s

end Sys2Proof.Machine
end

