-- ==== Sys2Proof/Machine/Datapath.lean ====
section
/-! DEFINITION. The signal-level reading of the datapath (40_sequencer.md R77): the same phases, with each update
selected by the lines the phase asserts. The step does not use it; an obligation states that the two readings agree. -/

namespace Sys2Proof.Machine

/-- 40_sequencer.md R64: operand A, by line `aluSelA`. Here and below, what a select chooses on a value no phase asserts
is the model's (93_implementation_defined.md item 22 lets a model give it any value; notes/assumptions/12.md). -/
def muxA (aluSelA : Option (BitVec 1)) (w : Word) (s : State) : Word :=
  if aluSelA = some 1#1 then s.x (rtOf w) else s.pc

/-- 40_sequencer.md R64: operand B, by line `aluSelB`. -/
def muxB (aluSelB : Option (BitVec 2)) (w : Word) (s : State) : Word :=
  if aluSelB = some 0b10#2 then simm (imm16Of w) else s.x (rdOf w)

/-- 10_state.md R20, line `regDst`: the register written. -/
def destination (regDst : Option (BitVec 1)) (w : Word) : RegIdx :=
  if regDst = some 0#1 then rsOf w else rdOf w

/-- 10_state.md R20, line `iOrD`: the address memory is accessed at, `v` being the Word in `aluResult`. -/
def memAddress (iOrD : Option (BitVec 1)) (v : Word) (s : State) : Word :=
  if iOrD = some 1#1 then v else s.pc

/-- 40_sequencer.md R77: memory is read iff `memRead = 1`; a path that reads nothing carries the zero Word. -/
def memData (memRead : BitVec 1) (a : Word) (s : State) : Word :=
  if memRead = 1 then s.memRead a else 0

/-- 10_state.md R20, line `memToReg`: `1` is the Word memory gives, otherwise `aluResult`. -/
def writeData (c : Ctrl) (v : Word) (s : State) : Word :=
  if c.memToReg = some 1#1 then memData c.memRead (memAddress c.iOrD v s) s else v

/-- 10_state.md R20, line `pcSource`: the exact integer the pc is written with. -/
def pcValue (pcSource : Option (BitVec 2)) (w : Word) (s : State) : Int :=
  if pcSource = some 0b00#2 then incrementedPc s.pc
  else if pcSource = some 0b01#2 then branchTarget s.pc (imm16Of w)
  else ((jumpTarget s.pc (addr26Of w)).toNat : Int)

/-- 40_sequencer.md R77: the pc is written iff `pcWrite = 1`, or `pcWriteCond = 1` and the comparator reports equal. -/
def pcWritten (c : Ctrl) (w : Word) (s : State) : Bool :=
  c.pcWrite == 1 || (c.pcWriteCond == 1 && wordsEqual (s.x (rsOf w)) (s.x (rtOf w)))

/-- 40_sequencer.md R77: one phase on the word `w`, read from the lines `c` it asserts. Only EXECUTE invokes the ALU. -/
def datapathPhase (p : PhaseKind) (c : Ctrl) (w : Word) (s : State) : Result :=
  if p = .execute then
    phaseFrame c
      ((aluCompute c.aluOp (muxA c.aluSelA w s) (muxB c.aluSelB w s)).map fun v => { s with aluResult := some v }) s
  else if c.regWrite = 1 then
    withAluResult s fun v => phaseFrame c (.ok (s.setX (destination c.regDst w) (writeData c v s))) s
  else if c.memWrite = 1 then
    withAluResult s fun v => phaseFrame c (.ok (s.memWrite (memAddress c.iOrD v s) (s.x (rsOf w)))) s
  else if pcWritten c w s then
    phaseFrame c ((encU (pcValue c.pcSource w s) 32).map fun t => { s with pc := t }) s
  else phaseFrame c (.ok s) s

end Sys2Proof.Machine
end

