-- ==== Sys2Proof/Machine/Assembler.lean ====
section
/-! DEFINITION. The symbolic boundary: Instruction Parsers and Instruction Factory (30_encoding.md R52 to R61). It has no
effect on the core (60_exceptions.md R93). -/

namespace Sys2Proof.Machine

/-- 30_encoding.md R52: whitespace is spaces and tabs. -/
def isSpace (c : Char) : Bool := c == ' ' || c == '\t'

/-- Without the whitespace at its two ends. -/
def trim (t : Text) : Text := ((t.dropWhile isSpace).reverse.dropWhile isSpace).reverse

/-- The first word of a line: its longest run of characters other than whitespace (notes/assumptions/14.md). -/
def firstWord (line : Text) : Text := (line.dropWhile isSpace).takeWhile fun c => !isSpace c

/-- What follows the first word, trimmed. -/
def operandText (line : Text) : Text := trim ((line.dropWhile isSpace).dropWhile fun c => !isSpace c)

/-- The pieces of a text between its commas. -/
def splitCommas : Text → List Text
  | [] => [[]]
  | c :: rest =>
    if c = ',' then [] :: splitCommas rest
    else
      match splitCommas rest with
      | [] => [[c]]
      | piece :: pieces => (c :: piece) :: pieces

/-- 30_encoding.md R52: an operand, with its register token (`$` included) not yet resolved. -/
inductive Operand where
  | reg (token : Text)
  | imm (n : Int)
  | mem (n : Int) (base : Text)
  deriving DecidableEq, Repr

/-- 30_encoding.md R52: a character a register name may hold. -/
def isNameChar (c : Char) : Bool := !isSpace c && c != ',' && c != '(' && c != ')'

/-- 30_encoding.md R52, `reg`: the token itself. -/
def parseReg : Text → Option Text
  | '$' :: name => if name ≠ [] ∧ name.all isNameChar then some ('$' :: name) else none
  | _ => none

/-- 30_encoding.md R52, `imm`: signed decimal with an optional sign. -/
def parseImm : Text → Option Int
  | '+' :: digits => (parseNat digits).map fun n => (n : Int)
  | '-' :: digits => (parseNat digits).map fun n => -(n : Int)
  | digits => (parseNat digits).map fun n => (n : Int)

/-- The register token between parentheses that `t` (from its `(` on) is, if it is one. -/
def parseParenthesised : Text → Option Text
  | '(' :: rest =>
    match rest.reverse with
    | ')' :: inner => parseReg (trim inner.reverse)
    | _ => none
  | _ => none

/-- 30_encoding.md R52, `operand`, on a trimmed piece. -/
def parseOperand (t : Text) : Option Operand :=
  match parseReg t with
  | some token => some (.reg token)
  | none =>
    let after := t.dropWhile fun c => c != '('
    match parseImm (trim (t.takeWhile fun c => c != '(')) with
    | none => none
    | some n => if after = [] then some (.imm n) else (parseParenthesised after).map (.mem n)

/-- Every element, or none if one is missing. -/
def allSome {α : Type} : List (Option α) → Option (List α)
  | [] => some []
  | none :: _ => none
  | some a :: rest => (allSome rest).map (a :: ·)

/-- 30_encoding.md R52, `operands`: none if the text is not of that form. -/
def parseOperands (line : Text) : Option (List Operand) :=
  if operandText line = [] then some [] else allSome ((splitCommas (operandText line)).map fun p => parseOperand (trim p))

/-- 30_encoding.md R53: the three parsers. -/
inductive Parser where
  | R
  | I
  | J
  deriving DecidableEq, Repr

/-- 30_encoding.md R53: each parser's mnemonic table. -/
def parserTable : Parser → List Mnemonic
  | .R => [.add, .sub, .and, .or, .slt]
  | .I => [.addi, .lw, .sw, .beq]
  | .J => [.j]

/-- 30_encoding.md R53: the mnemonic of a line in a parser's table, compared case-insensitively. -/
def tableMnemonic (p : Parser) (line : Text) : Option Mnemonic :=
  (parserTable p).find? fun m => mnemonicName m = (firstWord line).map Char.toLower

/-- 30_encoding.md R53: `match(text)`; it looks only at the mnemonic. -/
def parserMatches (p : Parser) (line : Text) : Bool := (tableMnemonic p line).isSome

/-- 30_encoding.md R55: a register token. -/
def resolveToken (token : Text) : Except BoundaryError RegIdx :=
  match resolveName (dropDollar token) with
  | some i => .ok i
  | none => .error (.registerNotFound token)

/-- A value computed from one that may have failed; the first error stands. -/
def thenDo {α β : Type} (r : Except BoundaryError α) (f : α → Except BoundaryError β) : Except BoundaryError β :=
  match r with
  | .ok a => f a
  | .error e => .error e

/-- R-type operands, left to right (30_encoding.md R54, R58, R59). -/
def threeRegs (mk : RegIdx → RegIdx → RegIdx → Instr) (a b c : Text) : Except BoundaryError Instr :=
  thenDo (resolveToken a) fun a => thenDo (resolveToken b) fun b => thenDo (resolveToken c) fun c => .ok (mk a b c)

/-- The operands of addi and beq, left to right (30_encoding.md R54, R57, R58, R59). -/
def twoRegsImm (mk : RegIdx → RegIdx → BitVec 16 → Instr) (a b : Text) (n : Int) : Except BoundaryError Instr :=
  thenDo (resolveToken a) fun a => thenDo (resolveToken b) fun b => thenDo (encS n 16) fun i => .ok (mk a b i)

/-- The operands of lw and sw, left to right: register, offset, base (30_encoding.md R54, R57, R58, R59). -/
def regOffsetBase (mk : RegIdx → RegIdx → BitVec 16 → Instr) (a : Text) (n : Int) (b : Text) :
    Except BoundaryError Instr :=
  thenDo (resolveToken a) fun a => thenDo (encS n 16) fun i => thenDo (resolveToken b) fun b => .ok (mk a b i)

/-- 30_encoding.md R54: the operands a mnemonic takes; any other count or shape is an `InstructionNotFoundError` of the
line. -/
def buildInstr (line : Text) (m : Mnemonic) (operands : List Operand) : Except BoundaryError Instr :=
  match m, operands with
  | .add, [.reg a, .reg b, .reg c] => threeRegs Instr.add a b c
  | .sub, [.reg a, .reg b, .reg c] => threeRegs Instr.sub a b c
  | .and, [.reg a, .reg b, .reg c] => threeRegs Instr.and a b c
  | .or, [.reg a, .reg b, .reg c] => threeRegs Instr.or a b c
  | .slt, [.reg a, .reg b, .reg c] => threeRegs Instr.slt a b c
  | .addi, [.reg a, .reg b, .imm n] => twoRegsImm Instr.addi a b n
  | .beq, [.reg a, .reg b, .imm n] => twoRegsImm Instr.beq a b n
  | .lw, [.reg a, .mem n b] => regOffsetBase Instr.lw a n b
  | .sw, [.reg a, .mem n b] => regOffsetBase Instr.sw a n b
  | .j, [.imm n] => thenDo (encU n 26) fun addr => .ok (.j addr)
  | _, _ => .error (.instructionNotFound (.text line))

/-- 30_encoding.md R58, R60: a parser's `parse(text)`. It checks the mnemonic again itself. -/
def parserParse (p : Parser) (line : Text) : Except BoundaryError Word :=
  match tableMnemonic p line with
  | none => .error (.instructionNotFound (.text line))
  | some m =>
    match parseOperands line with
    | none => .error (.instructionNotFound (.text line))
    | some operands => (buildInstr line m operands).map encode

/-- 30_encoding.md R53: the factory: "a fixed priority order (R, then I, then J ...) and uses the first match". -/
def assemble (line : Text) : Except BoundaryError Word :=
  if parserMatches .R line then parserParse .R line
  else if parserMatches .I line then parserParse .I line
  else if parserMatches .J line then parserParse .J line
  else .error (.instructionNotFound (.text line))

/-- 00_scope.md glossary, "Instruction": the decoded word, its fields, its 32-bit form and its phase sequence. -/
structure SymbolicInstr where
  instr : Instr
  word : Word
  phases : List PhaseKind
  deriving DecidableEq, Repr

/-- 30_encoding.md R60: `fromSymbolic(text)` is `decode(assemble(text))` with the phase sequence attached. -/
def fromSymbolic (line : Text) : Except BoundaryError SymbolicInstr :=
  thenDo (assemble line) fun w =>
    match decode w with
    | .ok i => .ok { instr := i, word := w, phases := phasesOf i }
    | .error _ => .error (.instructionNotFound (.word w))

end Sys2Proof.Machine
end

