-- ==== Sys2Proof/Machine/Disassembler.lean ====
section
/-! DEFINITION. A text for every instruction, in the form of 30_encoding.md R47's column "text form": what the
assembler's round trip is stated about. -/

namespace Sys2Proof.Machine

/-- The last digits of `n` before `acc`, at most `fuel` of them. -/
def natTextAux : Nat → Nat → Text → Text
  | 0, _, acc => acc
  | fuel + 1, n, acc =>
    if n < 10 then Char.ofNat ('0'.toNat + n) :: acc
    else natTextAux fuel (n / 10) (Char.ofNat ('0'.toNat + n % 10) :: acc)

/-- The decimal numeral of `n`, for `n < 10^10` (every field is below `2^26`). -/
def natText (n : Nat) : Text := natTextAux 10 n []

/-- The signed decimal of an integer. -/
def intText (n : Int) : Text := if n < 0 then '-' :: natText n.natAbs else natText n.natAbs

/-- A register by its index. -/
def regText (i : RegIdx) : Text := '$' :: natText i.val

/-- The comma between operands. -/
def commaText : Text := [',', ' ']

/-- `op $d, $a, $b`. -/
def threeRegsText (m : Mnemonic) (a b c : RegIdx) : Text :=
  mnemonicName m ++ ' ' :: (regText a ++ commaText ++ regText b ++ commaText ++ regText c)

/-- `op $d, $a, imm`. -/
def twoRegsImmText (m : Mnemonic) (a b : RegIdx) (imm16 : BitVec 16) : Text :=
  mnemonicName m ++ ' ' :: (regText a ++ commaText ++ regText b ++ commaText ++ intText imm16.toInt)

/-- `op $d, imm($b)`. -/
def regOffsetBaseText (m : Mnemonic) (a b : RegIdx) (imm16 : BitVec 16) : Text :=
  mnemonicName m ++ ' ' :: (regText a ++ commaText ++ intText imm16.toInt ++ '(' :: (regText b ++ [')']))

/-- 30_encoding.md R47, column "text form". -/
def instrText : Instr → Text
  | .add rs rt rd => threeRegsText .add rs rt rd
  | .sub rs rt rd => threeRegsText .sub rs rt rd
  | .and rs rt rd => threeRegsText .and rs rt rd
  | .or rs rt rd => threeRegsText .or rs rt rd
  | .slt rs rt rd => threeRegsText .slt rs rt rd
  | .addi rs rt imm16 => twoRegsImmText .addi rs rt imm16
  | .lw rs rt imm16 => regOffsetBaseText .lw rs rt imm16
  | .sw rs rt imm16 => regOffsetBaseText .sw rs rt imm16
  | .beq rs rt imm16 => twoRegsImmText .beq rs rt imm16
  | .j addr26 => mnemonicName .j ++ ' ' :: natText addr26.toNat

end Sys2Proof.Machine
end

