-- ==== Sys2Proof/Safety.lean ====
section
/-! DEFINITION. What counts as a safe run, in the terms claims use. -/

namespace Sys2Proof.Machine

/-- The 32-bit signed range (30_encoding.md R37). -/
abbrev Fits32 (n : Int) : Prop := -2147483648 ≤ n ∧ n ≤ 2147483647

/-- FETCH has room: the advanced pc is a Word (40_sequencer.md R67). -/
abbrev FetchRoom (s : State) : Prop := s.pc.toNat + 4 < 4294967296

/-- A taken branch from `pc`, the one FETCH left, lands on a Word (40_sequencer.md R72). -/
abbrev TargetFits (pc : Word) (imm16 : BitVec 16) : Prop :=
  0 ≤ branchTarget pc imm16 ∧ branchTarget pc imm16 < 4294967296

/-- The state in which `i` has been submitted and the phases `q` are still to execute. -/
def submitted (i : Instr) (q : List PhaseKind) (s : State) : State :=
  { s with cur := some (encode i), queue := q }

/-- The state in which `i` has been submitted and its FETCH has completed (40_sequencer.md R67), the phases `q` still to
execute. -/
def fetched (i : Instr) (q : List PhaseKind) (s : State) : State :=
  { s with cur := some (encode i), queue := q, pc := s.pc + 4,
           ctrl := { Ctrl.inert with pcWrite := 1, pcSource := some 0b00 } }

/-- The state an instruction that ends in ALU_WRITEBACK retires in, having written `v` to register `rs`
(40_sequencer.md R67 to R69). -/
def retiredAlu (i : Instr) (selB : BitVec 2) (op : BitVec 3) (rs : RegIdx) (v : Word) (s : State) : State :=
  { s.setX rs v with
    aluResult := some v, pc := s.pc + 4, queue := [], cur := some (encode i),
    ctrl := { Ctrl.inert with aluSelA := some 1, aluSelB := some selB, aluOp := some op, regWrite := 1,
                              regDst := some 0, memToReg := some 0 } }

/-- A phase that reads `aluResult` (10_state.md R22). -/
def readsAluResult : PhaseKind → Bool
  | .aluWriteback => true
  | .memRead => true
  | .memWrite => true
  | _ => false

/-- The phases in the queue are the rest of the current instruction's sequence (10_state.md R23, 40_sequencer.md R74). -/
def QueueBelongs (s : State) : Prop :=
  s.queue = [] ∨ ∃ i, s.cur = some (encode i) ∧ s.queue <:+ phasesOf i

/-- A phase that reads `aluResult` follows an EXECUTE (10_state.md R22, 40_sequencer.md R74). -/
def AluReady (s : State) : Prop :=
  ∀ p rest, s.queue = p :: rest → readsAluResult p = true → s.aluResult ≠ none

/-- `ctrl` is what some phase asserts, or inert (10_state.md R21). -/
def CtrlAsserted (s : State) : Prop :=
  s.ctrl = Ctrl.inert ∨ ∃ p l, s.ctrl = phaseCtrl p l

/-- The image the runner reads has one word for an address (70_reset_and_hazards.md R110). -/
def ImageWf (s : State) : Prop := ∀ image, s.program = .held image → image.wf

/-- The invariant of the machine: it holds at reset and every step keeps it. -/
structure MachineInv (s : State) : Prop where
  memWf : s.mem.wf
  imageWf : ImageWf s
  curLegal : ∀ w, s.cur = some w → ∃ i, w = encode i
  queueBelongs : QueueBelongs s
  aluReady : AluReady s
  ctrlAsserted : CtrlAsserted s

/-- The stops no run from reset reaches: an unsupported ALU code (40_sequencer.md R65) and a read of a slot that holds ⊥
(10_state.md R22). -/
def Fault.unreachable : Fault → Prop
  | .raised (.unsupportedOperation _) _ => True
  | .undefinedSlot _ _ => True
  | _ => False

end Sys2Proof.Machine
end

