-- ==== Sys2Proof/Certificates/Slice0/Obligations.lean ====
section
/-! DEFINITION. The statements for the provers. Each docstring names the rule of spec/ it formalises; where a clause
rests on a value or behaviour the spec marks as its own decision or as general knowledge, or on the model's choice, it
says so. -/

open Sys2Proof Sys2Proof.Machine

/-! ### Codec (30_encoding.md section 1) -/

/-- R36, R37: the signed codec is exact on its range, fails outside it, and decode is its inverse. -/
def Obligations.SignedCodecRoundTrip : Prop :=
  (∀ w : Nat, 1 ≤ w →
    (∀ n : Int, -(2 ^ (w - 1) : Int) ≤ n → n ≤ 2 ^ (w - 1) - 1 →
      ∃ v : BitVec w, encS n w = .ok v ∧ (v.toNat : Int) = n % 2 ^ w ∧ decS v = n) ∧
    (∀ n : Int, n < -(2 ^ (w - 1) : Int) ∨ 2 ^ (w - 1) - 1 < n → encS n w = .error (.range n w)) ∧
    (∀ v : BitVec w,
      decS v = (v.toNat : Int) - 2 ^ w * (if v.getLsbD (w - 1) then 1 else 0) ∧ encS (decS v) w = .ok v)) ∧
  (∀ n : Int, (∃ v, encS n 32 = .ok v) ↔ -2147483648 ≤ n ∧ n ≤ 2147483647)

/-- R38, R39 (the unsigned mode is the spec's decision D13): the unsigned codec is exact on its range, fails outside it,
and decode is its inverse. -/
def Obligations.UnsignedCodecRoundTrip : Prop :=
  ∀ w : Nat,
    (∀ n : Int, 0 ≤ n → n ≤ 2 ^ w - 1 → ∃ v : BitVec w, encU n w = .ok v ∧ (v.toNat : Int) = n ∧ (decU v : Int) = n) ∧
    (∀ n : Int, n < 0 ∨ 2 ^ w - 1 < n → encU n w = .error (.range n w)) ∧
    (∀ v : BitVec w, decU v = v.toNat ∧ encU (decU v) w = .ok v)

/-! ### Decoder and encoder (30_encoding.md sections 2 and 3) -/

/-- 30_encoding.md R48, R58 (opcode values: the spec's decision D21): decoding the word of any instruction gives the
instruction, with every operand at every value its field admits. -/
def Obligations.DecodeOfEncode : Prop := ∀ i : Instr, decode (encode i) = .ok i

/-- 30_encoding.md R48, R49: each word has one meaning: a word that decodes is the word of the instruction it decodes
to. -/
def Obligations.EncodeOfDecode : Prop := ∀ (w : Word) (i : Instr), decode w = .ok i → encode i = w

/-- 30_encoding.md R49, R50 (the set and the values are the spec's decisions D21, D22, D24): a word is illegal iff no row
of the opcode table (mask and match) matches it; a nonzero shamt under opcode `000000` is illegal whatever the funct. -/
def Obligations.IllegalIffNoRowMatches : Prop :=
  (∀ w : Word, (∃ e, decode w = .error e) ↔ ∀ r ∈ opcodeTable, w &&& r.mask ≠ r.pattern) ∧
  (∀ w : Word, w.extractLsb' 26 6 = 0 → w.extractLsb' 6 5 ≠ 0 → ∃ e, decode w = .error e)

/-- 95_test_vectors.md S5, S6, S8 and sections 2.1, 2.2: words written out bit by bit decode to the instructions they
stand for, one of every family, and words of section 2.1 do not decode. -/
def Obligations.WrittenOutWordsDecode : Prop :=
  decode 0b00000000001000100001100000000000#32 = .ok (.add 1 2 3) ∧
  decode 0b00000000100001010011000000100010#32 = .ok (.sub 4 5 6) ∧
  decode 0b00100000001000110000000000001111#32 = .ok (.addi 1 3 15) ∧
  decode 0b10001100001000100000000010000000#32 = .ok (.lw 1 2 128) ∧
  decode 0b10101100001000100000000010000000#32 = .ok (.sw 1 2 128) ∧
  decode 0b00010000001000101111111111111101#32 = .ok (.beq 1 2 0xFFFD) ∧
  decode 0b00001000000000000000010000000000#32 = .ok (.j 1024) ∧
  (decode 0x00000040#32).toOption = none ∧ (decode 0x00000020#32).toOption = none ∧
  (decode 0xFC000000#32).toOption = none

/-! ### General registers (10_state.md section 2) -/

/-- R16, and R15 for the OPEN parameter: a register read gives the Word the register holds, or the zero Word for
register 0 when it is hardwired; a write is seen by later reads of that register, discarded when it is register 0
hardwired, and by no other. -/
def Obligations.RegisterReadAndWrite : Prop :=
  ∀ (s : State) (i j : RegIdx) (v : Word),
    s.x i = (if s.zeroHardwired = true ∧ i = 0 then 0 else s.regs[i]) ∧
    (s.setX i v).x j =
      (if j = i then (if s.zeroHardwired = true ∧ i = 0 then 0 else v) else s.x j) ∧
    (s.zeroHardwired = true → i = 0 → s.setX i v = s)

/-- R17: a register write replaces the Word of that register and nothing else; of the phases only ALU_WRITEBACK and
MEM_READ write a register, and only field `rs` of the current word; no host call but `nextClock` writes one. -/
def Obligations.RegisterWritesAreConfined : Prop :=
  (∀ (s : State) (i : RegIdx) (v : Word), s.zeroHardwired = false ∨ i ≠ 0 →
    s.setX i v = { s with regs := s.regs.set i v }) ∧
  (∀ (s : State) (v : Word), s.zeroHardwired = true → s.setX 0 v = s) ∧
  (∀ s t : State, nextClock s = .next t → t.regs ≠ s.regs →
    ∃ rest w, (s.queue = .aluWriteback :: rest ∨ s.queue = .memRead :: rest) ∧ s.cur = some w ∧
      ∀ j, j ≠ rsOf w → t.x j = s.x j) ∧
  (∀ (c : HostCall) (s t : State), c ≠ .nextClock → performCall c s = .next t → t.regs = s.regs)

/-- R14: an alias and its canonical index name one register, in every state, through the host's accessor and in an
instruction's text, with or without the `$`. -/
def Obligations.AliasAndIndexAreOneRegister : Prop :=
  ∀ (s : State) (name : Text) (i : RegIdx), (name, i) ∈ aliasTable →
    registersRead s name = .ok (s.x i) ∧ registersRead s ('$' :: name) = .ok (s.x i) ∧
    registersRead s (natText i) = .ok (s.x i) ∧ registersRead s ('$' :: natText i) = .ok (s.x i) ∧
    resolveToken ('$' :: name) = .ok i ∧ resolveToken ('$' :: natText i) = .ok i

/-! ### Memory (20_memory.md) -/

/-- R27, R29 (and R28 for what a write makes of a read): `get` gives the Word of the entry at the address, or the zero
Word; a write is read back at its address and nowhere else; after `destroy` the address reads zero and is not listed; no
call but the host's `destroy`, so no instruction, takes an entry away. -/
def Obligations.MemoryGetSetDestroy : Prop :=
  (∀ (m : Memory) (a v : Word), m.wf → (a, v) ∈ m.cells → m.get a = v) ∧
  (∀ (m : Memory) (a : Word), a ∉ m.addresses → m.get a = 0) ∧
  (∀ (m : Memory) (a b v : Word), (m.set a v).get b = if b = a then v else m.get b) ∧
  (∀ (m : Memory) (a b : Word), (m.destroy a).get b = if b = a then 0 else m.get b) ∧
  (∀ (m : Memory) (a : Word), a ∉ (m.destroy a).addresses) ∧
  (∀ (m : Memory) (a : Word), a ∉ m.addresses → m.destroy a = m) ∧
  (∀ (c : HostCall) (s t : State), (∀ a, c ≠ .memoryDestroy a) → performCall c s = .next t →
    ∀ a, a ∈ s.mem.addresses → a ∈ t.mem.addresses)

/-- 20_memory.md R28, R30 (the overwrite's place is the spec's decision D11): an existing entry keeps its place in the
enumeration, a new one is appended at the end (a stored zero too), a destroyed one leaves it, and one destroyed and
written again is at the end. -/
def Obligations.MemoryInsertionOrder : Prop :=
  ∀ (m : Memory) (a v : Word),
    (a ∈ m.addresses → (m.set a v).addresses = m.addresses) ∧
    (a ∉ m.addresses → (m.set a v).cells = m.cells ++ [(a, v)]) ∧
    (m.destroy a).addresses = m.addresses.filter (fun b => b ≠ a) ∧
    ((m.destroy a).set a v).addresses = m.addresses.filter (fun b => b ≠ a) ++ [a]

/-- 20_memory.md R26, "Keys are unique": every memory operation keeps the canonical form, and no run of the memory makes
two entries of one address. -/
def Obligations.MemoryOperationsKeepForm : Prop :=
  Memory.empty.wf ∧ ∀ (m : Memory) (a v : Word), m.wf → (m.set a v).wf ∧ (m.destroy a).wf

/-! ### ALU (40_sequencer.md section 1) -/

/-- 40_sequencer.md R62, R63 (the codes and the failing overflow are the spec's decisions D14, D15): the ALU's table, with
add and subtract exact or failing, and the other three never failing. -/
def Obligations.AluComputesTheTable : Prop :=
  ∀ a b : Word,
    (Fits32 (a.toInt + b.toInt) → ∃ v, aluCompute (some 0b000) a b = .ok v ∧ v.toInt = a.toInt + b.toInt) ∧
    (¬ Fits32 (a.toInt + b.toInt) → aluCompute (some 0b000) a b = .error (.range (a.toInt + b.toInt) 32)) ∧
    (Fits32 (a.toInt - b.toInt) → ∃ v, aluCompute (some 0b001) a b = .ok v ∧ v.toInt = a.toInt - b.toInt) ∧
    (¬ Fits32 (a.toInt - b.toInt) → aluCompute (some 0b001) a b = .error (.range (a.toInt - b.toInt) 32)) ∧
    aluCompute (some 0b010) a b = .ok (a &&& b) ∧
    aluCompute (some 0b011) a b = .ok (a ||| b) ∧
    aluCompute (some 0b100) a b = .ok (if a.toInt < b.toInt then 1 else 0)

/-- 40_sequencer.md R65: an unsupported operation code fails with `UnsupportedOperationError`, and no step from a state of the machine's
invariant gets there (nor to the model's own stop for a slot that holds ⊥, a DESIGN CHOICE of notes/assumptions/10.md). -/
def Obligations.UnsupportedCodesFailAndAreUnreachable : Prop :=
  (∀ (code : Option (BitVec 3)) (a b : Word),
    code = some 0b101 ∨ code = some 0b110 ∨ code = some 0b111 ∨ code = none →
    aluCompute code a b = .error (.unsupportedOperation code)) ∧
  (∀ (s : State) (f : Fault), MachineInv s → step s = .fault f → ¬ f.unreachable)

/-! ### Sequencer (40_sequencer.md sections 2 and 3) -/

/-- 40_sequencer.md R75, R74 and 60_exceptions.md R92: `simulate` of a legal word, of each of the ten instructions, loads
it and its phase sequence and changes nothing else, discarding an unfinished instruction; an illegal word raises
`InstructionNotFoundError` and changes nothing (the last is the spec's decision D25, the sequences its D17). -/
def Obligations.SimulateLoadsOrChangesNothing : Prop :=
  (∀ (s : State) (i : Instr),
    (i.mnemonic ∈ [.add, .sub, .and, .or, .slt, .addi] →
      simulate (encode i) s = .next (submitted i [.fetch, .execute, .aluWriteback] s)) ∧
    (i.mnemonic = .lw → simulate (encode i) s = .next (submitted i [.fetch, .execute, .memRead] s)) ∧
    (i.mnemonic = .sw → simulate (encode i) s = .next (submitted i [.fetch, .execute, .memWrite] s)) ∧
    (i.mnemonic = .beq → simulate (encode i) s = .next (submitted i [.fetch, .branch] s)) ∧
    (i.mnemonic = .j → simulate (encode i) s = .next (submitted i [.fetch, .jump] s))) ∧
  (∀ (s : State) (w : Word), legalWord w = false →
    simulate w s = .fault (.raised (.instructionNotFound (.word w)) s))

/-- R76: `nextClock` on an empty queue changes nothing; otherwise it executes the head phase, which leaves the queue when
it completes, and on an error the state, with the phase still at the head, is as it was. -/
def Obligations.NextClockConsumesOnePhase : Prop :=
  (∀ s : State, s.queue = [] → nextClock s = .next s) ∧
  (∀ (s : State) (p : PhaseKind) (rest : List PhaseKind), s.queue = p :: rest →
    nextClock s = runPhase p s ∧ ∀ t, nextClock s = .next t → t.queue = rest) ∧
  (∀ (s k : State) (e : BoundaryError), nextClock s = .fault (.raised e k) →
    k = s ∧ nextClock k = .fault (.raised e k))

/-- R113, R74: the clocks an instruction takes: 3, or 2 for beq and j; the queue is empty after exactly so many
`nextClock` calls and not before. -/
def Obligations.CycleCounts : Prop :=
  ∀ (i : Instr) (s t u : State) (n : Nat), n = (if i.mnemonic = .beq ∨ i.mnemonic = .j then 2 else 3) →
    simulate (encode i) s = .next t → exec i s = .next u →
    clocks n t = .next u ∧ u.queue = [] ∧
    ∀ k < n, ∃ v, clocks k t = .next v ∧ v.queue.length = n - k

/-- 70_reset_and_hazards.md R110, R112: an instruction's meaning is `simulate` of its word and `nextClock` until the
queue is empty, in the outcome, the error and the state kept; and so is one turn of the runner, legal word or not. -/
def Obligations.ExecIsSimulateAndClocks : Prop :=
  (∀ (i : Instr) (s : State), exec i s = andThen (simulate (encode i) s) retire) ∧
  (∀ (w : Word) (s : State), runWord w s = andThen (simulate w s) retire)

/-- 40_sequencer.md R77 (a reading the spec derives): each phase is what the lines it asserts select, all twelve
lines read. -/
def Obligations.SignalLevelReadingAgrees : Prop :=
  ∀ (p : PhaseKind) (s : State) (w : Word), s.cur = some w →
    runPhase p s = datapathPhase p (phaseCtrl p (wordAluLines w)) w s

/-- 40_sequencer.md R66 to R73 (the kinds are the spec's decision D17, the pc values its general knowledge D8, D19, D20):
a phase that completes takes itself off the queue and changes, beside `ctrl`, only what its kind updates: FETCH, BRANCH
and JUMP the pc, EXECUTE `aluResult` with what the ALU computes from the operands its lines select, ALU_WRITEBACK and
MEM_READ the register of field `rs`, MEM_WRITE the cell at the Word in `aluResult`, with the Word of register `rs`. On an
empty queue nothing changes. -/
def Obligations.OneUpdatePerPhase : Prop :=
  ∀ s t : State, nextClock s = .next t →
    (s.queue = [] → t = s) ∧
    (∀ rest, s.queue = .fetch :: rest →
      FetchRoom s ∧ t = { s with pc := s.pc + 4, ctrl := t.ctrl, queue := rest }) ∧
    (∀ rest, s.queue = .execute :: rest → ∃ w v, s.cur = some w ∧
      aluCompute t.ctrl.aluOp (s.x (rtOf w))
        (if t.ctrl.aluSelB = some 0b10 then (imm16Of w).signExtend 32 else s.x (rdOf w)) = .ok v ∧
      t = { s with aluResult := some v, ctrl := t.ctrl, queue := rest }) ∧
    (∀ rest, s.queue = .aluWriteback :: rest → ∃ w v, s.cur = some w ∧ s.aluResult = some v ∧
      t = { s.setX (rsOf w) v with ctrl := t.ctrl, queue := rest }) ∧
    (∀ rest, s.queue = .memRead :: rest → ∃ w a, s.cur = some w ∧ s.aluResult = some a ∧
      t = { s.setX (rsOf w) (s.mem.get a) with ctrl := t.ctrl, queue := rest }) ∧
    (∀ rest, s.queue = .memWrite :: rest → ∃ w a, s.cur = some w ∧ s.aluResult = some a ∧
      t = { s with mem := s.mem.set a (s.x (rsOf w)), ctrl := t.ctrl, queue := rest }) ∧
    (∀ rest, s.queue = .branch :: rest → ∃ w, s.cur = some w ∧
      t = { s with
        pc := if s.x (rsOf w) = s.x (rtOf w) then
            BitVec.ofInt 32 ((s.pc.toNat : Int) + 4 * (imm16Of w).toInt)
          else s.pc,
        ctrl := t.ctrl, queue := rest }) ∧
    (∀ rest, s.queue = .jump :: rest → ∃ w, s.cur = some w ∧
      t = { s with pc := s.pc.extractLsb' 28 4 ++ addr26Of w ++ 0b00#2, ctrl := t.ctrl, queue := rest })

/-- 10_state.md R21 and 40_sequencer.md R67 to R73 (the lines and codes are the spec's decisions D15, D16): at creation
every line is inert; a completed phase leaves exactly the lines it asserts, each record written out, every other line
inert, whatever `ctrl` held before (two states that agree on the head phase and `cur` agree on `ctrl` after it);
`simulate` and an empty `nextClock` keep the record. -/
def Obligations.ControlLinesDoNotPersist : Prop :=
  (∀ p : Params, (State.resetFor p).ctrl = Ctrl.inert) ∧
  Ctrl.inert = { aluSelA := none, aluSelB := none, aluOp := none, memRead := 0, memWrite := 0, iOrD := none,
                 regWrite := 0, regDst := none, memToReg := none, pcWrite := 0, pcWriteCond := 0, pcSource := none } ∧
  (∀ (s t : State) (rest : List PhaseKind), nextClock s = .next t →
    (s.queue = .fetch :: rest → t.ctrl = { Ctrl.inert with pcWrite := 1, pcSource := some 0b00 }) ∧
    (s.queue = .memRead :: rest →
      t.ctrl = { Ctrl.inert with memRead := 1, iOrD := some 1, regWrite := 1, regDst := some 0, memToReg := some 1 }) ∧
    (s.queue = .memWrite :: rest → t.ctrl = { Ctrl.inert with memWrite := 1, iOrD := some 1 }) ∧
    (s.queue = .branch :: rest → t.ctrl = { Ctrl.inert with pcWriteCond := 1, pcSource := some 0b01 }) ∧
    (s.queue = .jump :: rest → t.ctrl = { Ctrl.inert with pcWrite := 1, pcSource := some 0b10 }) ∧
    (∀ (i : Instr) (selB : BitVec 2) (op : BitVec 3), s.cur = some (encode i) →
      (i.mnemonic, selB, op) ∈
        [(Mnemonic.add, 0b00#2, 0b000#3), (.sub, 0b00, 0b001), (.and, 0b00, 0b010), (.or, 0b00, 0b011),
         (.slt, 0b00, 0b100), (.addi, 0b10, 0b000), (.lw, 0b10, 0b000), (.sw, 0b10, 0b000)] →
      (s.queue = .execute :: rest →
        t.ctrl = { Ctrl.inert with aluSelA := some 1, aluSelB := some selB, aluOp := some op }) ∧
      (s.queue = .aluWriteback :: rest →
        t.ctrl = { Ctrl.inert with aluSelA := some 1, aluSelB := some selB, aluOp := some op, regWrite := 1,
                                   regDst := some 0, memToReg := some 0 }))) ∧
  (∀ (s t s' t' : State) (p : PhaseKind) (rest rest' : List PhaseKind), s.queue = p :: rest → s'.queue = p :: rest' →
    s.cur = s'.cur → nextClock s = .next t → nextClock s' = .next t' → t.ctrl = t'.ctrl) ∧
  (∀ (s t : State) (w : Word), simulate w s = .next t → t.ctrl = s.ctrl) ∧
  (∀ s t : State, s.queue = [] → nextClock s = .next t → t.ctrl = s.ctrl)

/-- R22: `aluResult` is ⊥ at creation; of the phases only EXECUTE writes it, and no other host call does; a phase that
reads it never stops on ⊥ in a state of the machine's invariant. -/
def Obligations.OnlyExecuteWritesAluResult : Prop :=
  (∀ p : Params, (State.resetFor p).aluResult = none) ∧
  (∀ s t : State, nextClock s = .next t → t.aluResult ≠ s.aluResult → ∃ rest, s.queue = .execute :: rest) ∧
  (∀ (c : HostCall) (s t : State), c ≠ .nextClock → performCall c s = .next t → t.aluResult = s.aluResult) ∧
  (∀ s k : State, MachineInv s → nextClock s ≠ .fault (.undefinedSlot .aluResult k))

/-- 10_state.md R19 (the step of 4 is the spec's general knowledge, D8): only FETCH, BRANCH and JUMP write the pc; FETCH
writes the address of the next instruction. -/
def Obligations.OnlyFetchBranchJumpWritePc : Prop :=
  (∀ s t : State, nextClock s = .next t → t.pc ≠ s.pc →
    ∃ rest, s.queue = .fetch :: rest ∨ s.queue = .branch :: rest ∨ s.queue = .jump :: rest) ∧
  (∀ (s t : State) (rest : List PhaseKind), s.queue = .fetch :: rest → nextClock s = .next t →
    t.pc.toNat = s.pc.toNat + 4) ∧
  (∀ (c : HostCall) (s t : State), c ≠ .nextClock → performCall c s = .next t → t.pc = s.pc)

/-! ### The ten instructions -/

/-- R79: `add`, whole: its word, its errors with the state kept, and the state it retires in (the pc's step of 4 is the
spec's D8, general knowledge, notes/assumptions/15.md). -/
def Obligations.AddWritesTheSum : Prop :=
  (∀ (rs rt rd : RegIdx) (s : State),
    encode (.add rs rt rd) &&& 0xFC0007FF#32 = 0x00000000#32 ∧
    (¬ FetchRoom s →
      exec (.add rs rt rd) s = .fault (.raised (.range ((s.pc.toNat : Int) + 4) 32)
        (submitted (.add rs rt rd) [.fetch, .execute, .aluWriteback] s))) ∧
    (FetchRoom s → ¬ Fits32 ((s.x rt).toInt + (s.x rd).toInt) →
      exec (.add rs rt rd) s = .fault (.raised (.range ((s.x rt).toInt + (s.x rd).toInt) 32)
        (fetched (.add rs rt rd) [.execute, .aluWriteback] s))) ∧
    (FetchRoom s → Fits32 ((s.x rt).toInt + (s.x rd).toInt) →
      exec (.add rs rt rd) s =
        .next (retiredAlu (.add rs rt rd) 0b00 0b000 rs (BitVec.ofInt 32 ((s.x rt).toInt + (s.x rd).toInt)) s))) ∧
  encode (.add 1 2 3) = 0x00221800#32 ∧ encode (.add 0 0 0) = 0x00000000#32

/-- R80: `sub`, whole (the funct value is the spec's D21, the pc's step of 4 its D8). -/
def Obligations.SubWritesTheDifference : Prop :=
  (∀ (rs rt rd : RegIdx) (s : State),
    encode (.sub rs rt rd) &&& 0xFC0007FF#32 = 0x00000022#32 ∧
    (¬ FetchRoom s →
      exec (.sub rs rt rd) s = .fault (.raised (.range ((s.pc.toNat : Int) + 4) 32)
        (submitted (.sub rs rt rd) [.fetch, .execute, .aluWriteback] s))) ∧
    (FetchRoom s → ¬ Fits32 ((s.x rt).toInt - (s.x rd).toInt) →
      exec (.sub rs rt rd) s = .fault (.raised (.range ((s.x rt).toInt - (s.x rd).toInt) 32)
        (fetched (.sub rs rt rd) [.execute, .aluWriteback] s))) ∧
    (FetchRoom s → Fits32 ((s.x rt).toInt - (s.x rd).toInt) →
      exec (.sub rs rt rd) s =
        .next (retiredAlu (.sub rs rt rd) 0b00 0b001 rs (BitVec.ofInt 32 ((s.x rt).toInt - (s.x rd).toInt)) s)) ∧
    (FetchRoom s → exec (.sub rs rt rt) s = .next (retiredAlu (.sub rs rt rt) 0b00 0b001 rs 0 s))) ∧
  encode (.sub 4 5 6) = 0x00853022#32

/-- R81: `and`, whole (the funct value is the spec's D21, the pc's step of 4 its D8). -/
def Obligations.AndWritesTheConjunction : Prop :=
  (∀ (rs rt rd : RegIdx) (s : State),
    encode (.and rs rt rd) &&& 0xFC0007FF#32 = 0x00000024#32 ∧
    (¬ FetchRoom s →
      exec (.and rs rt rd) s = .fault (.raised (.range ((s.pc.toNat : Int) + 4) 32)
        (submitted (.and rs rt rd) [.fetch, .execute, .aluWriteback] s))) ∧
    (FetchRoom s →
      exec (.and rs rt rd) s = .next (retiredAlu (.and rs rt rd) 0b00 0b010 rs (s.x rt &&& s.x rd) s))) ∧
  encode (.and 7 8 9) = 0x00E84824#32

/-- R82: `or`, whole (the funct value is the spec's D21, the pc's step of 4 its D8). -/
def Obligations.OrWritesTheDisjunction : Prop :=
  (∀ (rs rt rd : RegIdx) (s : State),
    encode (.or rs rt rd) &&& 0xFC0007FF#32 = 0x00000025#32 ∧
    (¬ FetchRoom s →
      exec (.or rs rt rd) s = .fault (.raised (.range ((s.pc.toNat : Int) + 4) 32)
        (submitted (.or rs rt rd) [.fetch, .execute, .aluWriteback] s))) ∧
    (FetchRoom s →
      exec (.or rs rt rd) s = .next (retiredAlu (.or rs rt rd) 0b00 0b011 rs (s.x rt ||| s.x rd) s)) ∧
    (FetchRoom s → exec (.or rs rt rt) s = .next (retiredAlu (.or rs rt rt) 0b00 0b011 rs (s.x rt) s))) ∧
  encode (.or 10 11 12) = 0x014B6025#32

/-- R83: `slt`, whole (the funct value and the signed comparison are the spec's D21 and D15, the pc's step of 4 its
D8). -/
def Obligations.SltWritesTheSignedComparison : Prop :=
  (∀ (rs rt rd : RegIdx) (s : State),
    encode (.slt rs rt rd) &&& 0xFC0007FF#32 = 0x0000002A#32 ∧
    (¬ FetchRoom s →
      exec (.slt rs rt rd) s = .fault (.raised (.range ((s.pc.toNat : Int) + 4) 32)
        (submitted (.slt rs rt rd) [.fetch, .execute, .aluWriteback] s))) ∧
    (FetchRoom s →
      exec (.slt rs rt rd) s =
        .next (retiredAlu (.slt rs rt rd) 0b00 0b100 rs (if (s.x rt).toInt < (s.x rd).toInt then 1 else 0) s)) ∧
    (FetchRoom s → exec (.slt rs rt rt) s = .next (retiredAlu (.slt rs rt rt) 0b00 0b100 rs 0 s))) ∧
  encode (.slt 13 14 15) = 0x01AE782A#32

/-- R84: `addi`, whole in the core (the pc's step of 4 is the spec's D8, general knowledge, notes/assumptions/15.md), and at the assembler: an immediate text outside
the 16-bit range raises `RangeError`. -/
def Obligations.AddiAddsTheSignedImmediate : Prop :=
  (∀ (rs rt : RegIdx) (imm16 : BitVec 16) (s : State),
    encode (.addi rs rt imm16) &&& 0xFC000000#32 = 0x20000000#32 ∧
    (¬ FetchRoom s →
      exec (.addi rs rt imm16) s = .fault (.raised (.range ((s.pc.toNat : Int) + 4) 32)
        (submitted (.addi rs rt imm16) [.fetch, .execute, .aluWriteback] s))) ∧
    (FetchRoom s → ¬ Fits32 ((s.x rt).toInt + imm16.toInt) →
      exec (.addi rs rt imm16) s = .fault (.raised (.range ((s.x rt).toInt + imm16.toInt) 32)
        (fetched (.addi rs rt imm16) [.execute, .aluWriteback] s))) ∧
    (FetchRoom s → Fits32 ((s.x rt).toInt + imm16.toInt) →
      exec (.addi rs rt imm16) s =
        .next (retiredAlu (.addi rs rt imm16) 0b10 0b000 rs (BitVec.ofInt 32 ((s.x rt).toInt + imm16.toInt)) s)) ∧
    (FetchRoom s →
      exec (.addi rs rt 0) s = .next (retiredAlu (.addi rs rt 0) 0b10 0b000 rs (s.x rt) s))) ∧
  encode (.addi 1 3 15) = 0x2023000F#32 ∧ encode (.addi 2 3 0xFF6F) = 0x2043FF6F#32 ∧
  (∀ (line a b : Text) (ra rb : RegIdx) (n : Int), tableMnemonic .I line = some .addi →
    parseOperands line = some [.reg a, .reg b, .imm n] → resolveToken a = .ok ra → resolveToken b = .ok rb →
    n < -32768 ∨ 32767 < n → assemble line = .error (.range n 16))

/-- R85: `lw`, whole (the opcode value is the spec's D21, the pc's step of 4 its D8): the effective address goes to
`aluResult`, the Word at it (zero if there is no entry) to `rs`, and memory is as before. -/
def Obligations.LwLoadsTheWordAtTheAddress : Prop :=
  (∀ (rs rt : RegIdx) (imm16 : BitVec 16) (s : State) (a : Word),
    encode (.lw rs rt imm16) &&& 0xFC000000#32 = 0x8C000000#32 ∧
    (¬ FetchRoom s →
      exec (.lw rs rt imm16) s = .fault (.raised (.range ((s.pc.toNat : Int) + 4) 32)
        (submitted (.lw rs rt imm16) [.fetch, .execute, .memRead] s))) ∧
    (FetchRoom s → ¬ Fits32 ((s.x rt).toInt + imm16.toInt) →
      exec (.lw rs rt imm16) s = .fault (.raised (.range ((s.x rt).toInt + imm16.toInt) 32)
        (fetched (.lw rs rt imm16) [.execute, .memRead] s))) ∧
    (FetchRoom s → Fits32 ((s.x rt).toInt + imm16.toInt) → a = BitVec.ofInt 32 ((s.x rt).toInt + imm16.toInt) →
      exec (.lw rs rt imm16) s =
        .next { s.setX rs (s.mem.get a) with
          aluResult := some a, pc := s.pc + 4, queue := [], cur := some (encode (.lw rs rt imm16)),
          ctrl := { Ctrl.inert with memRead := 1, iOrD := some 1, regWrite := 1, regDst := some 0,
                                    memToReg := some 1 } })) ∧
  (∀ (m : Memory) (a : Word), a ∉ m.addresses → m.get a = 0) ∧
  encode (.lw 1 2 128) = 0x8C220080#32

/-- R86: `sw`, whole (the opcode value and the field roles are the spec's D21 and D23, the pc's step of 4 its D8): the
Word of `rs` goes to the cell at the effective address and no register changes. -/
def Obligations.SwStoresTheWordAtTheAddress : Prop :=
  (∀ (rs rt : RegIdx) (imm16 : BitVec 16) (s : State) (a : Word),
    encode (.sw rs rt imm16) &&& 0xFC000000#32 = 0xAC000000#32 ∧
    (¬ FetchRoom s →
      exec (.sw rs rt imm16) s = .fault (.raised (.range ((s.pc.toNat : Int) + 4) 32)
        (submitted (.sw rs rt imm16) [.fetch, .execute, .memWrite] s))) ∧
    (FetchRoom s → ¬ Fits32 ((s.x rt).toInt + imm16.toInt) →
      exec (.sw rs rt imm16) s = .fault (.raised (.range ((s.x rt).toInt + imm16.toInt) 32)
        (fetched (.sw rs rt imm16) [.execute, .memWrite] s))) ∧
    (FetchRoom s → Fits32 ((s.x rt).toInt + imm16.toInt) → a = BitVec.ofInt 32 ((s.x rt).toInt + imm16.toInt) →
      exec (.sw rs rt imm16) s =
        .next { s with
          mem := s.mem.set a (s.x rs), aluResult := some a, pc := s.pc + 4, queue := [],
          cur := some (encode (.sw rs rt imm16)),
          ctrl := { Ctrl.inert with memWrite := 1, iOrD := some 1 } })) ∧
  (∀ (m : Memory) (a v : Word), a ∈ (m.set a v).addresses ∧
    (a ∈ m.addresses → (m.set a v).addresses = m.addresses) ∧
    (a ∉ m.addresses → (m.set a v).addresses = m.addresses ++ [a])) ∧
  encode (.sw 1 2 128) = 0xAC220080#32

/-- 44_control_transfer.md R87 (comparison, scaling and opcode are the spec's decisions D19, D21, general knowledge): `beq`
branches iff the registers are equal; a taken branch out of the pc's range raises with the pc FETCH left, one not taken
never fails. -/
def Obligations.BeqBranchesOnEquality : Prop :=
  (∀ (rs rt : RegIdx) (imm16 : BitVec 16) (s : State) (n : Int), n = ((s.pc.toNat : Int) + 4) + 4 * imm16.toInt →
    encode (.beq rs rt imm16) &&& 0xFC000000#32 = 0x10000000#32 ∧
    (¬ FetchRoom s →
      exec (.beq rs rt imm16) s = .fault (.raised (.range ((s.pc.toNat : Int) + 4) 32)
        (submitted (.beq rs rt imm16) [.fetch, .branch] s))) ∧
    (FetchRoom s → s.x rs = s.x rt → n < 0 ∨ 4294967295 < n →
      exec (.beq rs rt imm16) s = .fault (.raised (.range n 32) (fetched (.beq rs rt imm16) [.branch] s))) ∧
    (FetchRoom s → s.x rs = s.x rt → 0 ≤ n → n ≤ 4294967295 →
      exec (.beq rs rt imm16) s =
        .next { s with
          pc := BitVec.ofInt 32 n, queue := [], cur := some (encode (.beq rs rt imm16)),
          ctrl := { Ctrl.inert with pcWriteCond := 1, pcSource := some 0b01 } }) ∧
    (FetchRoom s → s.x rs ≠ s.x rt →
      exec (.beq rs rt imm16) s =
        .next { s with
          pc := s.pc + 4, queue := [], cur := some (encode (.beq rs rt imm16)),
          ctrl := { Ctrl.inert with pcWriteCond := 1, pcSource := some 0b01 } })) ∧
  encode (.beq 1 2 0xFFFD) = 0x1022FFFD#32

/-- 44_control_transfer.md R88 (target form and opcode are the spec's decisions D20, D21, general knowledge): `j` goes to
the top four bits of the advanced pc, the field, and two zeros; it fails in FETCH only. -/
def Obligations.JumpGoesToItsTarget : Prop :=
  (∀ (addr26 : BitVec 26) (s : State),
    encode (.j addr26) &&& 0xFC000000#32 = 0x08000000#32 ∧
    (¬ FetchRoom s →
      exec (.j addr26) s = .fault (.raised (.range ((s.pc.toNat : Int) + 4) 32)
        (submitted (.j addr26) [.fetch, .jump] s))) ∧
    (FetchRoom s → ∃ target : Word,
      exec (.j addr26) s =
        .next { s with
          pc := target, queue := [], cur := some (encode (.j addr26)),
          ctrl := { Ctrl.inert with pcWrite := 1, pcSource := some 0b10 } } ∧
      target.toNat = (s.pc.toNat + 4) / 2 ^ 28 * 2 ^ 28 + 4 * addr26.toNat ∧ target.toNat % 4 = 0)) ∧
  encode (.j 1024) = 0x08000400#32

/-! ### Frames -/

/-- R79 to R85 and 10_state.md R15 to R17: add, sub, and, or, slt, addi and lw change no register but `rs` and no cell of
memory, and leave the parameter and the host's side alone. -/
def Obligations.RegisterWritersFrame : Prop :=
  ∀ (i : Instr) (rs : RegIdx) (s t : State),
    ((∃ rt rd, i = .add rs rt rd) ∨ (∃ rt rd, i = .sub rs rt rd) ∨ (∃ rt rd, i = .and rs rt rd) ∨
     (∃ rt rd, i = .or rs rt rd) ∨ (∃ rt rd, i = .slt rs rt rd) ∨ (∃ rt imm, i = .addi rs rt imm) ∨
     (∃ rt imm, i = .lw rs rt imm)) →
    exec i s = .next t →
    (∀ j, j ≠ rs → t.x j = s.x j) ∧ (∀ a, t.memRead a = s.memRead a) ∧ t.mem = s.mem ∧
    t.zeroHardwired = s.zeroHardwired ∧ t.calls = s.calls ∧ t.program = s.program

/-- R86: sw changes no register and no cell but the one at the address the ALU computes, which then holds the stored
register's Word. -/
def Obligations.StoreFrame : Prop :=
  ∀ (rs rt : RegIdx) (imm16 : BitVec 16) (s t : State), exec (.sw rs rt imm16) s = .next t →
    (∀ j, t.x j = s.x j) ∧ t.regs = s.regs ∧
    t.zeroHardwired = s.zeroHardwired ∧ t.calls = s.calls ∧ t.program = s.program ∧
    ∀ a : Word, aluCompute (some 0b000) (s.x rt) (simm imm16) = .ok a →
      t.memRead a = s.x rs ∧ ∀ b, b ≠ a → t.memRead b = s.memRead b

/-- R87, R88: beq and j change no register, no cell of memory and not `aluResult`. -/
def Obligations.ControlTransferFrame : Prop :=
  ∀ (i : Instr) (s t : State),
    ((∃ rs rt imm, i = .beq rs rt imm) ∨ (∃ addr, i = .j addr)) → exec i s = .next t →
    (∀ j, t.x j = s.x j) ∧ t.regs = s.regs ∧ (∀ a, t.memRead a = s.memRead a) ∧ t.mem = s.mem ∧
    t.aluResult = s.aluResult ∧ t.zeroHardwired = s.zeroHardwired ∧ t.calls = s.calls ∧ t.program = s.program

/-- 70_reset_and_hazards.md R109: no host call but `simulate` and `nextClock` changes a register, pc, aluResult, ctrl,
queue or cur; the accessors change nothing at all; `memory.set` and `memory.destroy` change one cell. -/
def Obligations.HostCallsFrame : Prop :=
  ∀ (c : HostCall) (s t : State), c ≠ .nextClock → (∀ w, c ≠ .simulate w) → performCall c s = .next t →
    t = { s with mem := t.mem } ∧
    ((∀ a v, c ≠ .memorySet a v) → (∀ a, c ≠ .memoryDestroy a) → t = s) ∧
    (∀ a v, c = .memorySet a v → ∀ b, memoryGet t b = if b = a then v else memoryGet s b) ∧
    (∀ a, c = .memoryDestroy a → ∀ b, memoryGet t b = if b = a then 0 else memoryGet s b)

/-! ### One step -/

/-- 70_reset_and_hazards.md R110, and the model's step (notes/assumptions/4.md): with no call scheduled, the step runs the
instruction the runner's word at `pc` decodes to; an illegal word raises and changes nothing. -/
def Obligations.StepRunsTheDecodedInstruction : Prop :=
  ∀ (s : State) (w : Word), s.calls = [] → fetchWord s = some w →
    (∀ i, decode w = .ok i → step s = exec i s) ∧
    (∀ e, decode w = .error e → step s = .fault (.raised (.instructionNotFound (.word w)) s))

/-- The model's choice (notes/assumptions/5.md): a word placed for the next step is the one the next step runs, in either
kind of image. -/
def Obligations.PlacedWordIsRunNext : Prop :=
  ∀ (s : State) (i : Instr),
    step (s.withFetchWord 32 (encode i).toNat) = exec i (s.withFetchWord 32 (encode i).toNat) ∧
    (s.withFetchWord 32 (encode i).toNat).pc = s.pc ∧ (s.withFetchWord 32 (encode i).toNat).regs = s.regs

/-- 00_scope.md R2, 70_reset_and_hazards.md R108, R106, and the model's step (notes/assumptions/4.md): a scheduled call is
what the step performs, with the later calls still scheduled; with nothing scheduled and no word at `pc` the core idles, as
it does right after reset. -/
def Obligations.StepPerformsCallsOrIdles : Prop :=
  (∀ (s : State) (c : HostCall) (rest : List HostCall), s.calls = c :: rest →
    step s = performCall c { s with calls := rest }) ∧
  (∀ s : State, s.calls = [] → fetchWord s = none → step s = .next s) ∧
  (∀ p : Params, step (State.resetFor p) = .next (State.resetFor p))

/-- 10_state.md R15, 00_scope.md R7, and the model's placing of the parameter in State (notes/assumptions/3.md): no step
changes `zeroHardwired`, so a hardwired register 0 reads zero after every step and an ordinary one holds what is written
to it. -/
def Obligations.RegisterZeroKeepsItsKind : Prop :=
  (∀ s t : State, step s = .next t → t.zeroHardwired = s.zeroHardwired) ∧
  (∀ s t : State, s.zeroHardwired = true → step s = .next t → t.x 0 = 0) ∧
  (∀ (s : State) (v : Word), s.zeroHardwired = false → (s.setX 0 v).x 0 = v)

/-! ### Reset and the invariant -/

/-- R105: the state after reset, element by element, for all values of the OPEN parameters (the state `State.reset` gives
them the model's own, notes/assumptions/1.md to 3.md). -/
def Obligations.ResetState : Prop :=
  ∀ p : Params,
    (∀ i : RegIdx, (State.resetFor p).x i = if p.zeroHardwired = true ∧ i = 0 then 0 else p.regInit[i]) ∧
    (State.resetFor p).pc = p.pcInit ∧
    (∀ a, (State.resetFor p).memRead a = 0) ∧ memoryAddresses (State.resetFor p) = [] ∧
    (State.resetFor p).aluResult = none ∧
    (State.resetFor p).ctrl =
      { aluSelA := none, aluSelB := none, aluOp := none, memRead := 0, memWrite := 0, iOrD := none, regWrite := 0,
        regDst := none, memToReg := none, pcWrite := 0, pcWriteCond := 0, pcSource := none } ∧
    (State.resetFor p).queue = [] ∧ (State.resetFor p).cur = none

/-- The invariant of the machine (10_state.md R21 to R23, 20_memory.md R26, 40_sequencer.md R74) holds at reset, for all
values of the OPEN parameters. -/
def Obligations.InvariantAtReset : Prop := ∀ p : Params, MachineInv (State.resetFor p)

/-- Every step that completes keeps the invariant, from every state that meets it. -/
def Obligations.StepKeepsInvariant : Prop := ∀ s t : State, MachineInv s → step s = .next t → MachineInv t

/-- The state a step that raises leaves the host with meets the invariant too (60_exceptions.md R91, R95). -/
def Obligations.ErrorKeepsInvariant : Prop :=
  ∀ (s k : State) (e : BoundaryError), MachineInv s → step s = .fault (.raised e k) → MachineInv k

/-! ### Errors -/

/-- R11: a call on the boundary completes, or raises one of the four errors and leaves the whole state as it was. -/
def Obligations.CallCompletesOrChangesNothing : Prop :=
  ∀ (c : HostCall) (s : State), MachineInv s →
    (∃ t, performCall c s = .next t) ∨ ∃ e, performCall c s = .fault (.raised e s)

/-- 60_exceptions.md R91 (the values `u(pc) + 4` and the branch target in the errors, and the pc advanced by 4, are not
R91's: they are the spec's general knowledge D8 and D19, notes/assumptions/15.md): an error inside `nextClock` is the head phase's and keeps the state, so the effects of completed phases; FETCH
can raise `RangeError`, EXECUTE `RangeError` or `UnsupportedOperationError`, BRANCH `RangeError` when taken, and no other
phase raises; an add that raises in EXECUTE has advanced the pc and written neither `aluResult` nor a register. -/
def Obligations.WhichPhaseCanRaiseWhat : Prop :=
  (∀ (s k : State) (e : BoundaryError), nextClock s = .fault (.raised e k) →
    k = s ∧ ∃ rest,
      (s.queue = .fetch :: rest ∧ e = .range ((s.pc.toNat : Int) + 4) 32) ∨
      (s.queue = .execute :: rest ∧ ((∃ n, ¬ Fits32 n ∧ e = .range n 32) ∨ ∃ c, e = .unsupportedOperation c)) ∨
      (s.queue = .branch :: rest ∧ ∃ w, s.cur = some w ∧ s.x (rsOf w) = s.x (rtOf w) ∧
        e = .range (branchTarget s.pc (imm16Of w)) 32)) ∧
  (∀ (rs rt rd : RegIdx) (s k : State) (e : BoundaryError), FetchRoom s →
    exec (.add rs rt rd) s = .fault (.raised e k) →
    k.pc.toNat = s.pc.toNat + 4 ∧ k.aluResult = s.aluResult ∧ k.regs = s.regs ∧ k.mem = s.mem ∧
    k.queue = [.execute, .aluWriteback])

/-- 60_exceptions.md R96 (the spec's decision D40): an error inside an instruction is stuck: on the state it leaves, every
further `nextClock` raises the same error and leaves the same state, while `simulate` of a legal word discards the stuck
phases and keeps the effects already made. -/
def Obligations.InstructionErrorIsStuck : Prop :=
  ∀ (i : Instr) (s k : State) (e : BoundaryError), exec i s = .fault (.raised e k) →
    nextClock k = .fault (.raised e k) ∧
    ∀ j : Instr, simulate (encode j) k = .next { k with cur := some (encode j), queue := phasesOf j }

/-! ### Whole-machine rules -/

/-- 20_memory.md R35: a load from the address of the store before it, through an unchanged base register, gives the Word
stored. -/
def Obligations.LoadAfterStoreGivesTheStoredWord : Prop :=
  ∀ (rs rt rd : RegIdx) (imm16 : BitVec 16) (s t u : State), s.zeroHardwired = false ∨ rd ≠ 0 →
    exec (.sw rs rt imm16) s = .next t → exec (.lw rd rt imm16) t = .next u → u.x rd = s.x rs

/-- 20_memory.md R35: instructions are not fetched from memory by the core and only lw reads it: an instruction other than
lw and sw does the same whatever memory holds. -/
def Obligations.MemoryIsReadByLoadsOnly : Prop :=
  ∀ (i : Instr) (s t : State) (m : Memory), i.mnemonic ≠ .lw → i.mnemonic ≠ .sw →
    exec i s = .next t → exec i { s with mem := m } = .next { t with mem := m }

/-- 70_reset_and_hazards.md R112 and 10_state.md R21, R22: an instruction does not depend on what an earlier one left in
`ctrl`, `queue` and `cur`, nor on `aluResult`, which beq and j keep and every other instruction replaces. -/
def Obligations.NoDependenceOnEarlierControlState : Prop :=
  ∀ (i : Instr) (s t : State) (c : Ctrl) (q : List PhaseKind) (w : Option Word) (r : Option Word),
    exec i s = .next t →
    exec i { s with ctrl := c, queue := q, cur := w, aluResult := r } =
      .next { t with aluResult := if i.mnemonic = .beq ∨ i.mnemonic = .j then r else t.aluResult }

/-! ### The symbolic boundary (30_encoding.md section 4) -/

/-- 30_encoding.md R55, R56, 70_reset_and_hazards.md R109 (names and table: the spec's decisions D29, D30): a register
name resolves to `i` iff it is the numeral of `i` or an alias of `i` in the table; the host's `registers.read` completes
on the names that resolve, with at most one `$` before them, and raises `RegisterNotFoundError` on every other. -/
def Obligations.RegisterNamesResolve : Prop :=
  (∀ (name : Text) (i : RegIdx), resolveName name = some i ↔ name = natText i ∨ (name, i) ∈ aliasTable) ∧
  (∀ (name : Text) (i : RegIdx) (s : State), name = natText i ∨ (name, i) ∈ aliasTable →
    performCall (.registersRead name) s = .next s ∧ performCall (.registersRead ('$' :: name)) s = .next s ∧
    replyOf (.registersRead name) s = .word (s.x i)) ∧
  (∀ (name : Text) (s : State), (∀ i, resolveName (dropDollar name) ≠ some i) →
    performCall (.registersRead name) s = .fault (.raised (.registerNotFound name) s))

/-- 30_encoding.md R53, R57, R58 (field order and values: the spec's decisions D21, D23): the text of every instruction
assembles to its word, and `fromSymbolic` gives the instruction, its word and its phases. -/
def Obligations.AssembleOfText : Prop :=
  ∀ i : Instr, assemble (instrText i) = .ok (encode i) ∧
    fromSymbolic (instrText i) = .ok { instr := i, word := encode i, phases := phasesOf i }

/-- R60: `fromSymbolic` is `decode` of `assemble` with the phase sequence, never yields `Illegal`, fails with
`assemble`'s error otherwise, and `parse` fails on a text its parser does not match; a text no parser matches fails with
`InstructionNotFoundError`. -/
def Obligations.MatchAndParseAgree : Prop :=
  (∀ (line : Text) (w : Word), assemble line = .ok w →
    ∃ i, decode w = .ok i ∧ fromSymbolic line = .ok { instr := i, word := w, phases := phasesOf i }) ∧
  (∀ (line : Text) (e : BoundaryError), assemble line = .error e → fromSymbolic line = .error e) ∧
  (∀ (p : Parser) (line : Text), parserMatches p line = false →
    parserParse p line = .error (.instructionNotFound (.text line))) ∧
  (∀ line : Text, (∀ p, parserMatches p line = false) →
    fromSymbolic line = .error (.instructionNotFound (.text line)))

/-- 30_encoding.md R53 (what the first word of a line is, and lower case as ASCII, are the model's reading,
notes/assumptions/14.md): `match` looks only at the mnemonic, compared case-insensitively with the parser's table; no text is matched by
two parsers, so the factory's order never changes the outcome; the first match is the parser used, and a text none
matches fails. -/
def Obligations.ParserOrderIsNotObservable : Prop :=
  (∀ line : Text,
    (parserMatches .R line = true ↔ (firstWord line).map Char.toLower ∈
      ["add".toList, "sub".toList, "and".toList, "or".toList, "slt".toList]) ∧
    (parserMatches .I line = true ↔ (firstWord line).map Char.toLower ∈
      ["addi".toList, "lw".toList, "sw".toList, "beq".toList]) ∧
    (parserMatches .J line = true ↔ (firstWord line).map Char.toLower = "j".toList)) ∧
  (∀ (p : Parser) (line line' : Text), (firstWord line).map Char.toLower = (firstWord line').map Char.toLower →
    parserMatches p line = parserMatches p line') ∧
  (∀ (p q : Parser) (line : Text), parserMatches p line = true → parserMatches q line = true → p = q) ∧
  (∀ (p : Parser) (line : Text), parserMatches p line = true → assemble line = parserParse p line) ∧
  (∀ line : Text, (∀ p, parserMatches p line = false) → assemble line = .error (.instructionNotFound (.text line)))

/-- 30_encoding.md R59, with R53, R54, R57 and R58 (the order is the spec's decision D31, the names and shapes its D29, the
immediates its D13 and D39; the first word and the operands of a line are cut as notes/assumptions/14.md says): the first
fault of a line is the one reported, for every mnemonic of each of the four operand shapes: no table holds the mnemonic;
then the wrong count or shape; then the operands left to right, a register that does not resolve or an immediate that
does not fit; and a line with no fault assembles to its fields in their places. -/
def Obligations.FirstOperandFaultIsReported : Prop :=
  (∀ line : Text, (∀ p, parserMatches p line = false) → assemble line = .error (.instructionNotFound (.text line))) ∧
  (∀ (line : Text) (m : Mnemonic) (mk : RegIdx → RegIdx → RegIdx → Instr),
    (m, mk) ∈ [(Mnemonic.add, Instr.add), (.sub, .sub), (.and, .and), (.or, .or), (.slt, .slt)] →
    tableMnemonic .R line = some m →
    ((∀ a b c, parseOperands line ≠ some [.reg a, .reg b, .reg c]) →
      assemble line = .error (.instructionNotFound (.text line))) ∧
    ∀ a b c : Text, parseOperands line = some [.reg a, .reg b, .reg c] →
      (resolveName (dropDollar a) = none → assemble line = .error (.registerNotFound a)) ∧
      (∀ i, resolveName (dropDollar a) = some i → resolveName (dropDollar b) = none →
        assemble line = .error (.registerNotFound b)) ∧
      (∀ i j, resolveName (dropDollar a) = some i → resolveName (dropDollar b) = some j →
        resolveName (dropDollar c) = none → assemble line = .error (.registerNotFound c)) ∧
      (∀ i j k, resolveName (dropDollar a) = some i → resolveName (dropDollar b) = some j →
        resolveName (dropDollar c) = some k → assemble line = .ok (encode (mk i j k)))) ∧
  (∀ (line : Text) (m : Mnemonic) (mk : RegIdx → RegIdx → BitVec 16 → Instr),
    (m, mk) ∈ [(Mnemonic.addi, Instr.addi), (.beq, .beq)] → tableMnemonic .I line = some m →
    ((∀ a b n, parseOperands line ≠ some [.reg a, .reg b, .imm n]) →
      assemble line = .error (.instructionNotFound (.text line))) ∧
    ∀ (a b : Text) (n : Int), parseOperands line = some [.reg a, .reg b, .imm n] →
      (resolveName (dropDollar a) = none → assemble line = .error (.registerNotFound a)) ∧
      (∀ i, resolveName (dropDollar a) = some i → resolveName (dropDollar b) = none →
        assemble line = .error (.registerNotFound b)) ∧
      (∀ i j, resolveName (dropDollar a) = some i → resolveName (dropDollar b) = some j → n < -32768 ∨ 32767 < n →
        assemble line = .error (.range n 16)) ∧
      (∀ i j, resolveName (dropDollar a) = some i → resolveName (dropDollar b) = some j → -32768 ≤ n → n ≤ 32767 →
        assemble line = .ok (encode (mk i j (BitVec.ofInt 16 n))))) ∧
  (∀ (line : Text) (m : Mnemonic) (mk : RegIdx → RegIdx → BitVec 16 → Instr),
    (m, mk) ∈ [(Mnemonic.lw, Instr.lw), (.sw, .sw)] → tableMnemonic .I line = some m →
    ((∀ a n b, parseOperands line ≠ some [.reg a, .mem n b]) →
      assemble line = .error (.instructionNotFound (.text line))) ∧
    ∀ (a b : Text) (n : Int), parseOperands line = some [.reg a, .mem n b] →
      (resolveName (dropDollar a) = none → assemble line = .error (.registerNotFound a)) ∧
      (∀ i, resolveName (dropDollar a) = some i → n < -32768 ∨ 32767 < n → assemble line = .error (.range n 16)) ∧
      (∀ i, resolveName (dropDollar a) = some i → -32768 ≤ n → n ≤ 32767 → resolveName (dropDollar b) = none →
        assemble line = .error (.registerNotFound b)) ∧
      (∀ i j, resolveName (dropDollar a) = some i → -32768 ≤ n → n ≤ 32767 → resolveName (dropDollar b) = some j →
        assemble line = .ok (encode (mk i j (BitVec.ofInt 16 n))))) ∧
  (∀ line : Text, tableMnemonic .J line = some .j →
    ((∀ n, parseOperands line ≠ some [.imm n]) → assemble line = .error (.instructionNotFound (.text line))) ∧
    ∀ n : Int, parseOperands line = some [.imm n] →
      (n < 0 ∨ 67108863 < n → assemble line = .error (.range n 26)) ∧
      (0 ≤ n → n ≤ 67108863 → assemble line = .ok (encode (.j (BitVec.ofInt 26 n)))))

/-! ### What the accessors return -/

/-- 70_reset_and_hazards.md R109 and 20_memory.md R27 to R30 (that a reply is a function of the call and the state is the
model's choice, notes/assumptions/17.md): the four read accessors `memory.get`, `memory.addresses`, `alu.result` and
`control.<signalName>` complete and change nothing (`registers.read`, which can raise, is in O52 RegisterNamesResolve);
`memory.get` returns the Word of the entry, or zero where there is none, and `memory.addresses` the addresses of the entries in order, each
as the host's `memory.set` and `memory.destroy` left them; `alu.result` returns the slot, ⊥ included; and
`control.<signalName>` returns the line, ⊥ or its characters, most-significant bit first. -/
def Obligations.AccessorsReturnWhatTheStateHolds : Prop :=
  (∀ (s : State) (a : Word) (l : CtrlLine),
    performCall (.memoryGet a) s = .next s ∧ performCall .memoryAddresses s = .next s ∧
    performCall .aluResult s = .next s ∧ performCall (.control l) s = .next s) ∧
  (∀ (s : State) (a v : Word), s.mem.wf → (a, v) ∈ s.mem.cells → replyOf (.memoryGet a) s = .word v) ∧
  (∀ (s : State) (a : Word), a ∉ s.mem.addresses → replyOf (.memoryGet a) s = .word 0) ∧
  (∀ s : State, replyOf .memoryAddresses s = .addresses (s.mem.cells.map fun c => c.1)) ∧
  (∀ (s t : State) (a b v : Word), performCall (.memorySet a v) s = .next t →
    replyOf (.memoryGet a) t = .word v ∧ (b ≠ a → replyOf (.memoryGet b) t = replyOf (.memoryGet b) s) ∧
    replyOf .memoryAddresses t =
      .addresses (if a ∈ s.mem.addresses then s.mem.addresses else s.mem.addresses ++ [a])) ∧
  (∀ (s t : State) (a b : Word), performCall (.memoryDestroy a) s = .next t →
    replyOf (.memoryGet a) t = .word 0 ∧ (b ≠ a → replyOf (.memoryGet b) t = replyOf (.memoryGet b) s) ∧
    replyOf .memoryAddresses t = .addresses (s.mem.addresses.filter fun b => b ≠ a)) ∧
  (∀ s : State, replyOf .aluResult s = .slot s.aluResult) ∧
  (∀ s : State,
    replyOf (.control .aluSelA) s = .line (s.ctrl.aluSelA.map bitString) ∧
    replyOf (.control .aluSelB) s = .line (s.ctrl.aluSelB.map bitString) ∧
    replyOf (.control .aluOp) s = .line (s.ctrl.aluOp.map bitString) ∧
    replyOf (.control .memRead) s = .line (some (bitString s.ctrl.memRead)) ∧
    replyOf (.control .memWrite) s = .line (some (bitString s.ctrl.memWrite)) ∧
    replyOf (.control .iOrD) s = .line (s.ctrl.iOrD.map bitString) ∧
    replyOf (.control .regWrite) s = .line (some (bitString s.ctrl.regWrite)) ∧
    replyOf (.control .regDst) s = .line (s.ctrl.regDst.map bitString) ∧
    replyOf (.control .memToReg) s = .line (s.ctrl.memToReg.map bitString) ∧
    replyOf (.control .pcWrite) s = .line (some (bitString s.ctrl.pcWrite)) ∧
    replyOf (.control .pcWriteCond) s = .line (some (bitString s.ctrl.pcWriteCond)) ∧
    replyOf (.control .pcSource) s = .line (s.ctrl.pcSource.map bitString)) ∧
  (∀ (n : Nat) (v : BitVec n), (bitString v).length = n ∧
    ∀ k, k < n → (bitString v)[k]? = some (if v.getLsbD (n - 1 - k) then '1' else '0'))
end

