-- ==== Sys2Proof/Laws/Assembler.lean ====
section
/-! SUPPORT. What a register token and an immediate of the assembler give, said once (30_encoding.md R55, R57). -/

namespace Sys2Proof.Machine

@[simp] theorem thenDo_ok {α β : Type} (a : α) (f : α → Except BoundaryError β) : thenDo (.ok a) f = f a := rfl

@[simp] theorem thenDo_error {α β : Type} (e : BoundaryError) (f : α → Except BoundaryError β) :
    thenDo (.error e) f = .error e := rfl

theorem resolveToken_of_some {token : Text} {i : RegIdx} (h : resolveName (dropDollar token) = some i) :
    resolveToken token = .ok i := by
  simp [resolveToken, h]

theorem resolveToken_of_none {token : Text} (h : resolveName (dropDollar token) = none) :
    resolveToken token = .error (.registerNotFound token) := by
  simp [resolveToken, h]

/-- What the encoder of an immediate answers. -/
theorem encS_16 (n : Int) :
    encS n 16 = if -32768 ≤ n ∧ n ≤ 32767 then .ok (BitVec.ofInt 16 n) else .error (.range n 16) := by
  unfold encS
  have : (-((2 ^ (16 - 1) : Nat) : Int) ≤ n ∧ n ≤ ((2 ^ (16 - 1) : Nat) : Int) - 1) ↔ (-32768 ≤ n ∧ n ≤ 32767) := by
    norm_num
  simp only [this]

/-- What the encoder of a jump's field answers. -/
theorem encU_26 (n : Int) :
    encU n 26 = if 0 ≤ n ∧ n ≤ 67108863 then .ok (BitVec.ofInt 26 n) else .error (.range n 26) := by
  unfold encU
  have : (0 ≤ n ∧ n ≤ ((2 ^ 26 : Nat) : Int) - 1) ↔ (0 ≤ n ∧ n ≤ 67108863) := by norm_num
  simp only [this]

end Sys2Proof.Machine
end

