-- ==== Sys2Proof/Laws/Codec.lean ====
section
/-! SUPPORT. Everything the codec and the ALU answer (30_encoding.md R36 to R39, 40_sequencer.md R62 to R65). -/

namespace Sys2Proof.Machine

theorem encS_32_of_fits {n : Int} (h : Fits32 n) : encS n 32 = .ok (BitVec.ofInt 32 n) := by
  unfold encS; rw [if_pos]; norm_num; omega

theorem encS_32_of_not_fits {n : Int} (h : ¬ Fits32 n) : encS n 32 = .error (.range n 32) := by
  unfold encS; rw [if_neg]; norm_num; omega

/-- What the 32-bit signed encoder answers. -/
theorem encS_32 (n : Int) : encS n 32 = if Fits32 n then .ok (BitVec.ofInt 32 n) else .error (.range n 32) := by
  split
  · exact encS_32_of_fits ‹_›
  · exact encS_32_of_not_fits ‹_›

/-- What the 32-bit unsigned encoder answers. -/
theorem encU_32 (n : Int) :
    encU n 32 = if 0 ≤ n ∧ n < 4294967296 then .ok (BitVec.ofInt 32 n) else .error (.range n 32) := by
  unfold encU
  have : (0 ≤ n ∧ n ≤ ((2 ^ 32 : Nat) : Int) - 1) ↔ (0 ≤ n ∧ n < 4294967296) := by norm_num; omega
  simp only [this]

theorem toInt_ofInt_32 {n : Int} (h : Fits32 n) : (BitVec.ofInt 32 n).toInt = n := by
  rw [BitVec.toInt_ofInt]
  exact Int.bmod_eq_of_le (by norm_num; omega) (by norm_num; omega)

theorem toInt_bounds (v : Word) : Fits32 v.toInt :=
  ⟨by simpa using BitVec.le_toInt v, by have := BitVec.toInt_lt (x := v); norm_num at this; omega⟩

/-- A code the ALU lines hold selects its operation. -/
@[simp] theorem aluOpOfCode_code (op : AluOp) : aluOpOfCode (some op.code) = some op := by cases op <;> rfl

/-- The ALU on the code of an operation. -/
@[simp] theorem aluCompute_code (op : AluOp) (a b : Word) : aluCompute (some op.code) a b = aluApply op a b := by
  simp [aluCompute]

@[simp] theorem aluCompute_none (a b : Word) : aluCompute none a b = .error (.unsupportedOperation none) := rfl

/-- The exact integer an operation encodes. -/
def aluExact (op : AluOp) (a b : Word) : Int :=
  match op with
  | .add => a.toInt + b.toInt
  | .sub => a.toInt - b.toInt
  | .and => (a &&& b).toInt
  | .or => (a ||| b).toInt
  | .slt => if a.toInt < b.toInt then 1 else 0

/-- What the ALU answers, once for all operations. -/
theorem aluApply_eq (op : AluOp) (a b : Word) :
    aluApply op a b =
      if Fits32 (aluExact op a b) then .ok (BitVec.ofInt 32 (aluExact op a b))
      else .error (.range (aluExact op a b) 32) := by
  cases op with
  | add => exact encS_32 _
  | sub => exact encS_32 _
  | and =>
    rw [if_pos (show Fits32 (aluExact .and a b) from toInt_bounds _)]
    exact congrArg Except.ok BitVec.ofInt_toInt.symm
  | or =>
    rw [if_pos (show Fits32 (aluExact .or a b) from toInt_bounds _)]
    exact congrArg Except.ok BitVec.ofInt_toInt.symm
  | slt => by_cases h : a.toInt < b.toInt <;> simp [aluApply, aluExact, signedLess, h, encS_32]

/-- An operation that is not add or subtract never raises (40_sequencer.md R63). -/
theorem aluExact_fits {op : AluOp} (ha : op ≠ .add) (hs : op ≠ .sub) (a b : Word) : Fits32 (aluExact op a b) := by
  cases op with
  | add => exact absurd rfl ha
  | sub => exact absurd rfl hs
  | and => exact toInt_bounds _
  | or => exact toInt_bounds _
  | slt => by_cases h : a.toInt < b.toInt <;> simp only [aluExact, h, if_true, if_false] <;> decide

/-- The sign-extended immediate reads as the immediate (30_encoding.md R46). -/
@[simp] theorem toInt_simm (imm16 : BitVec 16) : (simm imm16).toInt = imm16.toInt :=
  BitVec.toInt_signExtend_of_le (by omega)

end Sys2Proof.Machine
end

