-- ==== Sys2Proof/Laws/Decode.lean ====
section
/-! SUPPORT. The fields of an encoded word, and a word put together from its fields (30_encoding.md R41 to R43). -/

namespace Sys2Proof

@[simp] theorem regOfBits_regBits (i : RegIdx) : regOfBits (regBits i) = i := by
  apply Fin.ext
  simp only [regOfBits, regBits, BitVec.toNat_ofNat]
  omega

@[simp] theorem regBits_regOfBits (v : BitVec 5) : regBits (regOfBits v) = v := by
  apply BitVec.eq_of_toNat_eq
  simp only [regOfBits, regBits, BitVec.toNat_ofNat]
  omega

section R
variable (f : BitVec 6) (rs rt rd : RegIdx)

@[simp] theorem opcodeOf_encodeR : opcodeOf (encodeR f rs rt rd) = 0b000000#6 := by
  unfold opcodeOf encodeR
  repeat rw [BitVec.extractLsb'_append_eq_of_le (by omega)]
  simp

@[simp] theorem rsOf_encodeR : rsOf (encodeR f rs rt rd) = rs := by
  unfold rsOf encodeR
  iterate 4 rw [BitVec.extractLsb'_append_eq_of_le (by omega)]
  rw [BitVec.extractLsb'_append_eq_of_add_le (by omega)]
  simp

@[simp] theorem rtOf_encodeR : rtOf (encodeR f rs rt rd) = rt := by
  unfold rtOf encodeR
  iterate 3 rw [BitVec.extractLsb'_append_eq_of_le (by omega)]
  rw [BitVec.extractLsb'_append_eq_of_add_le (by omega)]
  simp

@[simp] theorem rdOf_encodeR : rdOf (encodeR f rs rt rd) = rd := by
  unfold rdOf encodeR
  iterate 2 rw [BitVec.extractLsb'_append_eq_of_le (by omega)]
  rw [BitVec.extractLsb'_append_eq_of_add_le (by omega)]
  simp

@[simp] theorem shamtOf_encodeR : shamtOf (encodeR f rs rt rd) = 0b00000#5 := by
  unfold shamtOf encodeR
  rw [BitVec.extractLsb'_append_eq_of_le (by omega), BitVec.extractLsb'_append_eq_of_add_le (by omega)]
  simp

@[simp] theorem functOf_encodeR : functOf (encodeR f rs rt rd) = f := by
  unfold functOf encodeR
  rw [BitVec.extractLsb'_append_eq_of_add_le (by omega)]
  simp

end R

section I
variable (op : BitVec 6) (rs rt : RegIdx) (imm16 : BitVec 16)

@[simp] theorem opcodeOf_encodeI : opcodeOf (encodeI op rs rt imm16) = op := by
  unfold opcodeOf encodeI
  iterate 3 rw [BitVec.extractLsb'_append_eq_of_le (by omega)]
  simp

@[simp] theorem rsOf_encodeI : rsOf (encodeI op rs rt imm16) = rs := by
  unfold rsOf encodeI
  iterate 2 rw [BitVec.extractLsb'_append_eq_of_le (by omega)]
  rw [BitVec.extractLsb'_append_eq_of_add_le (by omega)]
  simp

@[simp] theorem rtOf_encodeI : rtOf (encodeI op rs rt imm16) = rt := by
  unfold rtOf encodeI
  rw [BitVec.extractLsb'_append_eq_of_le (by omega), BitVec.extractLsb'_append_eq_of_add_le (by omega)]
  simp

@[simp] theorem imm16Of_encodeI : imm16Of (encodeI op rs rt imm16) = imm16 := by
  unfold imm16Of encodeI
  rw [BitVec.extractLsb'_append_eq_of_add_le (by omega)]
  simp

end I

section J
variable (op : BitVec 6) (addr26 : BitVec 26)

@[simp] theorem opcodeOf_encodeJ : opcodeOf (encodeJ op addr26) = op := by
  unfold opcodeOf encodeJ
  rw [BitVec.extractLsb'_append_eq_of_le (by omega)]
  simp

@[simp] theorem addr26Of_encodeJ : addr26Of (encodeJ op addr26) = addr26 := by
  unfold addr26Of encodeJ
  rw [BitVec.extractLsb'_append_eq_of_add_le (by omega)]
  simp

end J

/-- An R-type word with shamt `00000` is its fields. -/
theorem encodeR_of_fields (w : Word) (ho : opcodeOf w = 0b000000#6) (hs : shamtOf w = 0b00000#5) :
    encodeR (functOf w) (rsOf w) (rtOf w) (rdOf w) = w := by
  unfold encodeR
  rw [← ho, ← hs]
  simp only [opcodeOf, rsOf, rtOf, rdOf, shamtOf, functOf, regBits_regOfBits]
  iterate 5 rw [BitVec.extractLsb'_append_extractLsb'_eq_extractLsb' (by omega)]
  simp

/-- An I-type word is its fields. -/
theorem encodeI_of_fields (w : Word) : encodeI (opcodeOf w) (rsOf w) (rtOf w) (imm16Of w) = w := by
  simp only [encodeI, opcodeOf, rsOf, rtOf, imm16Of, regBits_regOfBits]
  iterate 3 rw [BitVec.extractLsb'_append_extractLsb'_eq_extractLsb' (by omega)]
  simp

/-- A J-type word is its fields. -/
theorem encodeJ_of_fields (w : Word) : encodeJ (opcodeOf w) (addr26Of w) = w := by
  simp only [encodeJ, opcodeOf, addr26Of]
  rw [BitVec.extractLsb'_append_extractLsb'_eq_extractLsb' (by omega)]
  simp

end Sys2Proof
end

