-- ==== Sys2Proof/Laws/State.lean ====
section
/-! SUPPORT. One lemma per field and update of State, so that no later proof unfolds an update. -/

namespace Sys2Proof.Machine

section SetX
variable (s : State) (i : RegIdx) (v : Word)

@[simp] theorem setX_mem : (s.setX i v).mem = s.mem := by unfold State.setX; split <;> rfl
@[simp] theorem setX_aluResult : (s.setX i v).aluResult = s.aluResult := by unfold State.setX; split <;> rfl
@[simp] theorem setX_ctrl : (s.setX i v).ctrl = s.ctrl := by unfold State.setX; split <;> rfl
@[simp] theorem setX_pc : (s.setX i v).pc = s.pc := by unfold State.setX; split <;> rfl
@[simp] theorem setX_queue : (s.setX i v).queue = s.queue := by unfold State.setX; split <;> rfl
@[simp] theorem setX_cur : (s.setX i v).cur = s.cur := by unfold State.setX; split <;> rfl
@[simp] theorem setX_zeroHardwired : (s.setX i v).zeroHardwired = s.zeroHardwired := by
  unfold State.setX; split <;> rfl
@[simp] theorem setX_calls : (s.setX i v).calls = s.calls := by unfold State.setX; split <;> rfl
@[simp] theorem setX_program : (s.setX i v).program = s.program := by unfold State.setX; split <;> rfl

end SetX

section MemWrite
variable (s : State) (a v : Word)

@[simp] theorem memWrite_regs : (s.memWrite a v).regs = s.regs := rfl
@[simp] theorem memWrite_mem : (s.memWrite a v).mem = s.mem.set a v := rfl
@[simp] theorem memWrite_aluResult : (s.memWrite a v).aluResult = s.aluResult := rfl
@[simp] theorem memWrite_ctrl : (s.memWrite a v).ctrl = s.ctrl := rfl
@[simp] theorem memWrite_pc : (s.memWrite a v).pc = s.pc := rfl
@[simp] theorem memWrite_queue : (s.memWrite a v).queue = s.queue := rfl
@[simp] theorem memWrite_cur : (s.memWrite a v).cur = s.cur := rfl
@[simp] theorem memWrite_zeroHardwired : (s.memWrite a v).zeroHardwired = s.zeroHardwired := rfl
@[simp] theorem memWrite_calls : (s.memWrite a v).calls = s.calls := rfl
@[simp] theorem memWrite_program : (s.memWrite a v).program = s.program := rfl
@[simp] theorem memWrite_x (i : RegIdx) : (s.memWrite a v).x i = s.x i := rfl

end MemWrite

section Accept
variable (i : Instr) (s : State)

@[simp] theorem accept_regs : (accept i s).regs = s.regs := rfl
@[simp] theorem accept_mem : (accept i s).mem = s.mem := rfl
@[simp] theorem accept_aluResult : (accept i s).aluResult = s.aluResult := rfl
@[simp] theorem accept_ctrl : (accept i s).ctrl = s.ctrl := rfl
@[simp] theorem accept_pc : (accept i s).pc = s.pc := rfl
@[simp] theorem accept_queue : (accept i s).queue = phasesOf i := rfl
@[simp] theorem accept_cur : (accept i s).cur = some (encode i) := rfl
@[simp] theorem accept_zeroHardwired : (accept i s).zeroHardwired = s.zeroHardwired := rfl
@[simp] theorem accept_calls : (accept i s).calls = s.calls := rfl
@[simp] theorem accept_program : (accept i s).program = s.program := rfl
@[simp] theorem accept_x (j : RegIdx) : (accept i s).x j = s.x j := rfl

end Accept

/-- A register read depends on the register file and `zeroHardwired` only. -/
theorem x_congr {s t : State} (hr : t.regs = s.regs) (hz : t.zeroHardwired = s.zeroHardwired) (i : RegIdx) :
    t.x i = s.x i := by simp [State.x, hr, hz]

/-- The written register reads as the Word written, unless the write was discarded. -/
theorem x_setX_self (s : State) (i : RegIdx) (v : Word) :
    (s.setX i v).x i = if s.zeroHardwired ∧ i = 0 then 0 else v := by
  by_cases h : s.zeroHardwired ∧ i = 0
  · simp [State.setX, State.x, h]
  · rw [if_neg h]
    have h' : (s.zeroHardwired && i == 0) = false := by simpa using h
    simp [State.setX, State.x, h']

/-- Every other register reads as before. -/
theorem x_setX_other (s : State) {i j : RegIdx} (v : Word) (h : j ≠ i) : (s.setX i v).x j = s.x j := by
  have h' : (i : Nat) ≠ j := fun e => h (Fin.ext e.symm)
  unfold State.setX
  split
  · rfl
  · simp [State.x, h']

/-- A register write changes the register file only. -/
theorem setX_eq (s : State) (i : RegIdx) (v : Word) : s.setX i v = { s with regs := (s.setX i v).regs } := by
  unfold State.setX; split <;> rfl

/-- What a register write makes of the register file depends on the file and `zeroHardwired` only. -/
theorem setX_regs_congr {s t : State} (hr : t.regs = s.regs) (hz : t.zeroHardwired = s.zeroHardwired) (i : RegIdx)
    (v : Word) : (t.setX i v).regs = (s.setX i v).regs := by
  unfold State.setX; rw [hz]; split <;> simp [hr]

end Sys2Proof.Machine
end

