-- ==== Sys2Proof/Laws/Ops.lean ====
section
/-! SUPPORT. What each phase can do, said once: the equation of a phase where it completes, the equation where it
raises, and no other case (40_sequencer.md R66 to R73). -/

namespace Sys2Proof.Machine

@[simp] theorem andThen_next (s : State) (f : State → Result) : andThen (.next s) f = f s := rfl
@[simp] theorem andThen_fault (e : Fault) (f : State → Result) : andThen (.fault e) f = .fault e := rfl
@[simp] theorem andThen_refused (e : Refusal) (f : State → Result) : andThen (.refused e) f = .refused e := rfl

/-- A chain that completes completed its first part. -/
theorem andThen_eq_next {r : Result} {f : State → Result} {t : State} (h : andThen r f = .next t) :
    ∃ s, r = .next s ∧ f s = .next t := by
  cases r with
  | next s => exact ⟨s, rfl, h⟩
  | fault e => cases h
  | refused e => cases h

/-- A chain that faults faulted in its first part, or completed it and faulted after it. -/
theorem andThen_eq_fault {r : Result} {f : State → Result} {e : Fault} (h : andThen r f = .fault e) :
    r = .fault e ∨ ∃ s, r = .next s ∧ f s = .fault e := by
  cases r with
  | next s => exact .inr ⟨s, rfl, h⟩
  | fault e' => exact .inl h
  | refused e' => cases h

theorem andThen_assoc (r : Result) (f g : State → Result) :
    andThen (andThen r f) g = andThen r fun s => andThen (f s) g := by
  cases r <;> rfl

@[simp] theorem phaseFrame_ok (c : Ctrl) (t s : State) :
    phaseFrame c (.ok t) s = .next { t with ctrl := c, queue := s.queue.tail } := rfl

@[simp] theorem phaseFrame_error (c : Ctrl) (e : BoundaryError) (s : State) :
    phaseFrame c (.error e) s = .fault (.raised e s) := rfl

@[simp] theorem except_map_ok {α β : Type} (f : α → β) (a : α) :
    (Except.ok a : Except BoundaryError α).map f = .ok (f a) := rfl

@[simp] theorem except_map_error {α β : Type} (f : α → β) (e : BoundaryError) :
    (Except.error e : Except BoundaryError α).map f = .error e := rfl

/-- The state FETCH leaves. -/
def afterFetch (s : State) : State :=
  { s with pc := s.pc + 4, ctrl := fetchCtrl, queue := s.queue.tail }

section AfterFetch
variable (s : State)

@[simp] theorem afterFetch_regs : (afterFetch s).regs = s.regs := rfl
@[simp] theorem afterFetch_mem : (afterFetch s).mem = s.mem := rfl
@[simp] theorem afterFetch_aluResult : (afterFetch s).aluResult = s.aluResult := rfl
@[simp] theorem afterFetch_ctrl : (afterFetch s).ctrl = fetchCtrl := rfl
@[simp] theorem afterFetch_pc : (afterFetch s).pc = s.pc + 4 := rfl
@[simp] theorem afterFetch_queue : (afterFetch s).queue = s.queue.tail := rfl
@[simp] theorem afterFetch_cur : (afterFetch s).cur = s.cur := rfl
@[simp] theorem afterFetch_zeroHardwired : (afterFetch s).zeroHardwired = s.zeroHardwired := rfl
@[simp] theorem afterFetch_calls : (afterFetch s).calls = s.calls := rfl
@[simp] theorem afterFetch_program : (afterFetch s).program = s.program := rfl
@[simp] theorem afterFetch_x (i : RegIdx) : (afterFetch s).x i = s.x i := rfl

end AfterFetch

theorem ofInt_toNat_add (v : Word) (k : Nat) : BitVec.ofInt 32 ((v.toNat : Int) + k) = v + BitVec.ofNat 32 k := by
  apply BitVec.eq_of_toNat_eq
  rw [BitVec.toNat_ofInt, BitVec.toNat_add, BitVec.toNat_ofNat]
  norm_num
  omega

/-- FETCH, whole. -/
theorem fetchPhase_eq (s : State) :
    fetchPhase s =
      if FetchRoom s then .next (afterFetch s)
      else .fault (.raised (.range ((s.pc.toNat : Int) + 4) 32) s) := by
  unfold fetchPhase incrementedPc pcStep
  rw [encU_32]
  by_cases h : FetchRoom s
  · have h' : 0 ≤ (s.pc.toNat : Int) + 4 ∧ (s.pc.toNat : Int) + 4 < 4294967296 := by
      have := h; unfold FetchRoom at this; omega
    rw [if_pos h', if_pos h, except_map_ok, phaseFrame_ok]
    have := ofInt_toNat_add s.pc 4
    simp only [Nat.cast_ofNat] at this
    rw [this]
    rfl
  · have h' : ¬ (0 ≤ (s.pc.toNat : Int) + 4 ∧ (s.pc.toNat : Int) + 4 < 4294967296) := by
      unfold FetchRoom at h; omega
    rw [if_neg h', if_neg h, except_map_error, phaseFrame_error]

theorem fetchPhase_of_room {s : State} (h : FetchRoom s) : fetchPhase s = .next (afterFetch s) := by
  rw [fetchPhase_eq, if_pos h]

theorem fetchPhase_of_no_room {s : State} (h : ¬ FetchRoom s) :
    fetchPhase s = .fault (.raised (.range ((s.pc.toNat : Int) + 4) 32) s) := by
  rw [fetchPhase_eq, if_neg h]

/-- EXECUTE with ALU lines, whole. -/
theorem executePhase_some (l : AluLines) (a b : Word) (s : State) :
    executePhase (some l) a b s =
      if Fits32 (aluExact l.op a b) then
        .next { s with aluResult := some (BitVec.ofInt 32 (aluExact l.op a b)), ctrl := executeCtrl (some l),
                       queue := s.queue.tail }
      else .fault (.raised (.range (aluExact l.op a b) 32) s) := by
  unfold executePhase
  simp only [Option.map_some, aluCompute_code]
  rw [aluApply_eq]
  split
  · rfl
  · rfl

/-- EXECUTE without ALU lines raises (40_sequencer.md R65). -/
theorem executePhase_none (a b : Word) (s : State) :
    executePhase none a b s = .fault (.raised (.unsupportedOperation none) s) := rfl

theorem aluWritebackPhase_of_some (l : Option AluLines) (rs : RegIdx) {s : State} {v : Word}
    (h : s.aluResult = some v) :
    aluWritebackPhase l rs s = .next { s.setX rs v with ctrl := aluWritebackCtrl l, queue := s.queue.tail } := by
  simp [aluWritebackPhase, withAluResult, h]

theorem memReadPhase_of_some (rs : RegIdx) {s : State} {a : Word} (h : s.aluResult = some a) :
    memReadPhase rs s =
      .next { s.setX rs (s.memRead a) with ctrl := memReadCtrl, queue := s.queue.tail } := by
  simp [memReadPhase, withAluResult, h]

theorem memWritePhase_of_some (rs : RegIdx) {s : State} {a : Word} (h : s.aluResult = some a) :
    memWritePhase rs s =
      .next { s.memWrite a (s.x rs) with ctrl := memWriteCtrl, queue := s.queue.tail } := by
  simp [memWritePhase, withAluResult, h]

/-- BRANCH, whole. -/
theorem branchPhase_eq (rs rt : RegIdx) (imm16 : BitVec 16) (s : State) :
    branchPhase rs rt imm16 s =
      if s.x rs = s.x rt then
        if TargetFits s.pc imm16 then
          .next { s with pc := BitVec.ofInt 32 (branchTarget s.pc imm16), ctrl := branchCtrl, queue := s.queue.tail }
        else .fault (.raised (.range (branchTarget s.pc imm16) 32) s)
      else .next { s with ctrl := branchCtrl, queue := s.queue.tail } := by
  unfold branchPhase wordsEqual
  by_cases h : s.x rs = s.x rt
  · simp only [h, beq_self_eq_true, if_true]
    rw [encU_32]
    split <;> rfl
  · have : (s.x rs == s.x rt) = false := by simpa using h
    rw [if_neg h, this]
    rfl

/-- JUMP, whole. -/
theorem jumpPhase_eq (addr26 : BitVec 26) (s : State) :
    jumpPhase addr26 s =
      .next { s with pc := jumpTarget s.pc addr26, ctrl := jumpCtrl, queue := s.queue.tail } := rfl

end Sys2Proof.Machine
end

