-- ==== Sys2Proof/Laws/Exec.lean ====
section
/-! SUPPORT. Each shape of instruction, whole: where it completes and with which state, and where it raises
(41_alu_register.md to 44_control_transfer.md). -/

namespace Sys2Proof.Machine

/-- The state EXECUTE with ALU lines `l` and exact result `n` leaves. -/
def afterExecute (l : AluLines) (n : Int) (s : State) : State :=
  { s with aluResult := some (BitVec.ofInt 32 n), ctrl := executeCtrl (some l), queue := s.queue.tail }

section AfterExecute
variable (l : AluLines) (n : Int) (s : State)

@[simp] theorem afterExecute_regs : (afterExecute l n s).regs = s.regs := rfl
@[simp] theorem afterExecute_mem : (afterExecute l n s).mem = s.mem := rfl
@[simp] theorem afterExecute_aluResult : (afterExecute l n s).aluResult = some (BitVec.ofInt 32 n) := rfl
@[simp] theorem afterExecute_pc : (afterExecute l n s).pc = s.pc := rfl
@[simp] theorem afterExecute_queue : (afterExecute l n s).queue = s.queue.tail := rfl
@[simp] theorem afterExecute_cur : (afterExecute l n s).cur = s.cur := rfl
@[simp] theorem afterExecute_zeroHardwired : (afterExecute l n s).zeroHardwired = s.zeroHardwired := rfl
@[simp] theorem afterExecute_calls : (afterExecute l n s).calls = s.calls := rfl
@[simp] theorem afterExecute_program : (afterExecute l n s).program = s.program := rfl
@[simp] theorem afterExecute_x (i : RegIdx) : (afterExecute l n s).x i = s.x i := rfl

end AfterExecute

theorem executePhase_of_fits {l : AluLines} {a b : Word} (s : State) (h : Fits32 (aluExact l.op a b)) :
    executePhase (some l) a b s = .next (afterExecute l (aluExact l.op a b) s) := by
  rw [executePhase_some, if_pos h]; rfl

theorem executePhase_of_not_fits {l : AluLines} {a b : Word} (s : State) (h : ¬ Fits32 (aluExact l.op a b)) :
    executePhase (some l) a b s = .fault (.raised (.range (aluExact l.op a b) 32) s) := by
  rw [executePhase_some, if_neg h]

section Arms
variable (rs rt rd : RegIdx) (imm16 : BitVec 16) (addr26 : BitVec 26) (s : State)

theorem exec_add : exec (.add rs rt rd) s = aluRegister (.add rs rt rd) .add rs rt rd s := rfl
theorem exec_sub : exec (.sub rs rt rd) s = aluRegister (.sub rs rt rd) .sub rs rt rd s := rfl
theorem exec_and : exec (.and rs rt rd) s = aluRegister (.and rs rt rd) .and rs rt rd s := rfl
theorem exec_or : exec (.or rs rt rd) s = aluRegister (.or rs rt rd) .or rs rt rd s := rfl
theorem exec_slt : exec (.slt rs rt rd) s = aluRegister (.slt rs rt rd) .slt rs rt rd s := rfl
theorem exec_addi : exec (.addi rs rt imm16) s = execAddi rs rt imm16 s := rfl
theorem exec_lw : exec (.lw rs rt imm16) s = execLw rs rt imm16 s := rfl
theorem exec_sw : exec (.sw rs rt imm16) s = execSw rs rt imm16 s := rfl
theorem exec_beq : exec (.beq rs rt imm16) s = execBeq rs rt imm16 s := rfl
theorem exec_j : exec (.j addr26) s = execJ addr26 s := rfl

end Arms

/-- Any instruction raises in FETCH when the pc has no room, with nothing of it done but the submission. -/
theorem exec_of_no_room (i : Instr) {s : State} (h : ¬ FetchRoom s) :
    exec i s = .fault (.raised (.range ((s.pc.toNat : Int) + 4) 32) (accept i s)) := by
  have hf : ∀ j, fetchPhase (accept j s) = .fault (.raised (.range ((s.pc.toNat : Int) + 4) 32) (accept j s)) :=
    fun j => fetchPhase_of_no_room h
  cases i <;>
    simp [exec, execAdd, execSub, execAnd, execOr, execSlt, execAddi, execLw, execSw, execBeq, execJ, aluRegister,
      addressPhases, hf]

/-- The write phase's register write, as a write on the state the instruction started from. -/
theorem retired_setX (i : Instr) (l : AluLines) (n : Int) (s : State) (hq : (phasesOf i).tail.tail.tail = [])
    (rs : RegIdx) (v : Word) (c : Ctrl) :
    ({ (afterExecute l n (afterFetch (accept i s))).setX rs v with
        ctrl := c, queue := (afterExecute l n (afterFetch (accept i s))).queue.tail } : State) =
      { s.setX rs v with
        aluResult := some (BitVec.ofInt 32 n), pc := s.pc + 4, queue := [], cur := some (encode i), ctrl := c } := by
  have e : ∀ t : State, t.zeroHardwired = s.zeroHardwired →
      t.setX rs v = if (s.zeroHardwired && rs == 0) = true then t else { t with regs := t.regs.set rs v } := by
    intro t h
    rw [← h]
    rfl
  simp only [afterExecute_queue, afterFetch_queue, accept_queue, hq]
  rw [e (afterExecute l n (afterFetch (accept i s))) rfl, e s rfl]
  by_cases hz : (s.zeroHardwired && rs == 0) = true
  · rw [if_pos hz, if_pos hz]
    rfl
  · rw [if_neg hz, if_neg hz]
    rfl

/-- A register-register instruction whose FETCH has room. -/
theorem aluRegister_of_room (i : Instr) (op : AluOp) (rs rt rd : RegIdx) {s : State} (h : FetchRoom s)
    (hq : (phasesOf i).tail.tail.tail = []) :
    aluRegister i op rs rt rd s =
      if Fits32 (aluExact op (s.x rt) (s.x rd)) then
        .next { s.setX rs (BitVec.ofInt 32 (aluExact op (s.x rt) (s.x rd))) with
          aluResult := some (BitVec.ofInt 32 (aluExact op (s.x rt) (s.x rd))), pc := s.pc + 4, queue := [],
          cur := some (encode i), ctrl := aluWritebackCtrl (some ⟨.register, op⟩) }
      else .fault (.raised (.range (aluExact op (s.x rt) (s.x rd)) 32) (afterFetch (accept i s))) := by
  have hr : fetchPhase (accept i s) = .next (afterFetch (accept i s)) := fetchPhase_of_room h
  unfold aluRegister
  rw [hr, andThen_next]
  by_cases hf : Fits32 (aluExact op (s.x rt) (s.x rd))
  · have hx : executePhase (some ⟨.register, op⟩) ((afterFetch (accept i s)).x rt) ((afterFetch (accept i s)).x rd)
        (afterFetch (accept i s)) =
        .next (afterExecute ⟨.register, op⟩ (aluExact op (s.x rt) (s.x rd)) (afterFetch (accept i s))) :=
      executePhase_of_fits _ hf
    rw [if_pos hf, hx, andThen_next, aluWritebackPhase_of_some _ _ (afterExecute_aluResult _ _ _)]
    exact congrArg Host.Outcome.next (retired_setX _ _ _ _ hq _ _ _)
  · rw [if_neg hf]
    exact congrArg (fun r => andThen r _) (executePhase_of_not_fits _ hf)

theorem execAddi_of_room (rs rt : RegIdx) (imm16 : BitVec 16) {s : State} (h : FetchRoom s) :
    execAddi rs rt imm16 s =
      if Fits32 ((s.x rt).toInt + imm16.toInt) then
        .next { s.setX rs (BitVec.ofInt 32 ((s.x rt).toInt + imm16.toInt)) with
          aluResult := some (BitVec.ofInt 32 ((s.x rt).toInt + imm16.toInt)), pc := s.pc + 4, queue := [],
          cur := some (encode (.addi rs rt imm16)), ctrl := aluWritebackCtrl (some ⟨.immediate, .add⟩) }
      else .fault (.raised (.range ((s.x rt).toInt + imm16.toInt) 32) (afterFetch (accept (.addi rs rt imm16) s))) := by
  have hr : fetchPhase (accept (.addi rs rt imm16) s) = .next (afterFetch (accept (.addi rs rt imm16) s)) :=
    fetchPhase_of_room h
  have hn : aluExact .add (s.x rt) (simm imm16) = (s.x rt).toInt + imm16.toInt := by simp [aluExact]
  unfold execAddi
  rw [hr, andThen_next, ← hn]
  by_cases hf : Fits32 (aluExact .add (s.x rt) (simm imm16))
  · have hx : executePhase (some ⟨.immediate, .add⟩) ((afterFetch (accept (.addi rs rt imm16) s)).x rt) (simm imm16)
        (afterFetch (accept (.addi rs rt imm16) s)) =
        .next (afterExecute ⟨.immediate, .add⟩ (aluExact .add (s.x rt) (simm imm16))
          (afterFetch (accept (.addi rs rt imm16) s))) :=
      executePhase_of_fits _ hf
    rw [if_pos hf, hx, andThen_next, aluWritebackPhase_of_some _ _ (afterExecute_aluResult _ _ _)]
    exact congrArg Host.Outcome.next (retired_setX _ _ _ _ rfl _ _ _)
  · rw [if_neg hf]
    exact congrArg (fun r => andThen r _) (executePhase_of_not_fits _ hf)

/-- The two phases that leave the effective address in `aluResult`. -/
theorem addressPhases_of_room (i : Instr) (rt : RegIdx) (imm16 : BitVec 16) {s : State} (h : FetchRoom s) :
    addressPhases i rt imm16 s =
      if Fits32 ((s.x rt).toInt + imm16.toInt) then
        .next (afterExecute ⟨.immediate, .add⟩ ((s.x rt).toInt + imm16.toInt) (afterFetch (accept i s)))
      else .fault (.raised (.range ((s.x rt).toInt + imm16.toInt) 32) (afterFetch (accept i s))) := by
  have hr : fetchPhase (accept i s) = .next (afterFetch (accept i s)) := fetchPhase_of_room h
  have hn : aluExact .add (s.x rt) (simm imm16) = (s.x rt).toInt + imm16.toInt := by simp [aluExact]
  unfold addressPhases
  rw [hr, andThen_next, ← hn]
  by_cases hf : Fits32 (aluExact .add (s.x rt) (simm imm16))
  · rw [if_pos hf]
    exact executePhase_of_fits _ hf
  · rw [if_neg hf]
    exact executePhase_of_not_fits _ hf

theorem execLw_of_room (rs rt : RegIdx) (imm16 : BitVec 16) {s : State} (h : FetchRoom s) :
    execLw rs rt imm16 s =
      if Fits32 ((s.x rt).toInt + imm16.toInt) then
        .next { s.setX rs (s.memRead (BitVec.ofInt 32 ((s.x rt).toInt + imm16.toInt))) with
          aluResult := some (BitVec.ofInt 32 ((s.x rt).toInt + imm16.toInt)), pc := s.pc + 4, queue := [],
          cur := some (encode (.lw rs rt imm16)), ctrl := memReadCtrl }
      else .fault (.raised (.range ((s.x rt).toInt + imm16.toInt) 32) (afterFetch (accept (.lw rs rt imm16) s))) := by
  unfold execLw
  rw [addressPhases_of_room _ _ _ h]
  split
  · rw [andThen_next, memReadPhase_of_some _ (afterExecute_aluResult _ _ _)]
    exact congrArg Host.Outcome.next (retired_setX (.lw rs rt imm16) _ _ _ rfl _ _ _)
  · rfl

theorem execSw_of_room (rs rt : RegIdx) (imm16 : BitVec 16) {s : State} (h : FetchRoom s) :
    execSw rs rt imm16 s =
      if Fits32 ((s.x rt).toInt + imm16.toInt) then
        .next { s with
          mem := s.mem.set (BitVec.ofInt 32 ((s.x rt).toInt + imm16.toInt)) (s.x rs),
          aluResult := some (BitVec.ofInt 32 ((s.x rt).toInt + imm16.toInt)), pc := s.pc + 4, queue := [],
          cur := some (encode (.sw rs rt imm16)), ctrl := memWriteCtrl }
      else .fault (.raised (.range ((s.x rt).toInt + imm16.toInt) 32) (afterFetch (accept (.sw rs rt imm16) s))) := by
  unfold execSw
  rw [addressPhases_of_room _ _ _ h]
  split
  · rw [andThen_next, memWritePhase_of_some _ (afterExecute_aluResult _ _ _)]
    rfl
  · rfl

theorem execBeq_of_room (rs rt : RegIdx) (imm16 : BitVec 16) {s : State} (h : FetchRoom s) :
    execBeq rs rt imm16 s =
      if s.x rs = s.x rt then
        if TargetFits (s.pc + 4) imm16 then
          .next { s with pc := BitVec.ofInt 32 (branchTarget (s.pc + 4) imm16), ctrl := branchCtrl, queue := [],
                         cur := some (encode (.beq rs rt imm16)) }
        else .fault (.raised (.range (branchTarget (s.pc + 4) imm16) 32) (afterFetch (accept (.beq rs rt imm16) s)))
      else .next { s with pc := s.pc + 4, ctrl := branchCtrl, queue := [], cur := some (encode (.beq rs rt imm16)) } := by
  have hr : fetchPhase (accept (.beq rs rt imm16) s) = .next (afterFetch (accept (.beq rs rt imm16) s)) :=
    fetchPhase_of_room h
  unfold execBeq
  rw [hr, andThen_next, branchPhase_eq]
  rfl

theorem execJ_of_room (addr26 : BitVec 26) {s : State} (h : FetchRoom s) :
    execJ addr26 s =
      .next { s with pc := jumpTarget (s.pc + 4) addr26, ctrl := jumpCtrl, queue := [],
                     cur := some (encode (.j addr26)) } := by
  have hr : fetchPhase (accept (.j addr26) s) = .next (afterFetch (accept (.j addr26) s)) := fetchPhase_of_room h
  unfold execJ
  rw [hr, andThen_next, jumpPhase_eq]
  rfl

end Sys2Proof.Machine
end

