-- ==== Sys2Proof/Laws/Memory.lean ====
section
/-! SUPPORT. Everything the memory operations do: reads after writes, the enumeration order, the canonical form. -/

namespace Sys2Proof.Machine

theorem cellAt_eq_none_iff (l : List (Word × Word)) (a : Word) : cellAt l a = none ↔ a ∉ l.map (·.1) := by
  induction l with
  | nil => simp [cellAt]
  | cons c l ih =>
    obtain ⟨k, v⟩ := c
    by_cases h : k = a
    · simp [cellAt, h]
    · simp [cellAt, h, ih, Ne.symm h]

theorem cellAt_cellsSet (l : List (Word × Word)) (a b v : Word) :
    cellAt (cellsSet l a v) b = if b = a then some v else cellAt l b := by
  induction l with
  | nil =>
    by_cases h : b = a
    · simp [cellsSet, cellAt, h]
    · simp [cellsSet, cellAt, h, Ne.symm h]
  | cons c l ih =>
    obtain ⟨k, x⟩ := c
    by_cases hk : k = a <;> by_cases hb : b = a
    · simp [cellsSet, cellAt, hk, hb]
    · simp [cellsSet, cellAt, hk, hb, Ne.symm hb]
    · subst hb
      simpa only [cellsSet, hk, if_false, cellAt, if_true] using ih
    · simp only [cellsSet, hk, if_false, cellAt, ih, hb]

theorem map_fst_cellsSet (l : List (Word × Word)) (a v : Word) :
    (cellsSet l a v).map (·.1) = if a ∈ l.map (·.1) then l.map (·.1) else l.map (·.1) ++ [a] := by
  induction l with
  | nil => simp [cellsSet]
  | cons c l ih =>
    obtain ⟨k, x⟩ := c
    by_cases hk : k = a
    · simp [cellsSet, hk]
    · have hk' : a ≠ k := Ne.symm hk
      simp only [cellsSet, hk, if_false, List.map_cons, ih, List.mem_cons, hk', false_or]
      split <;> simp

theorem cellAt_filter (l : List (Word × Word)) (a b : Word) :
    cellAt (l.filter fun c => c.1 ≠ a) b = if b = a then none else cellAt l b := by
  induction l with
  | nil => simp [cellAt]
  | cons c l ih =>
    obtain ⟨k, x⟩ := c
    by_cases hk : k = a
    · subst hk
      by_cases hb : b = k
      · simp [hb, cellAt_eq_none_iff]
      · have := ih
        simp only [hb, if_false] at this
        have hf : ((k, x) :: l).filter (fun c => c.1 ≠ k) = l.filter fun c => c.1 ≠ k := by simp
        rw [hf, this]
        simp [cellAt, hb, Ne.symm hb]
    · have hf : ((k, x) :: l).filter (fun c => c.1 ≠ a) = (k, x) :: l.filter fun c => c.1 ≠ a := by simp [hk]
      rw [hf]
      by_cases hb : b = a
      · subst hb
        have := ih
        simp only [if_true] at this
        simp only [cellAt, hk, if_false, this, if_true]
      · simp only [cellAt, ih, hb, if_false]

/-- 20_memory.md R28: what an address reads as after a write. -/
theorem get_set (m : Memory) (a b v : Word) : (m.set a v).get b = if b = a then v else m.get b := by
  simp only [Memory.get, Memory.find?, Memory.set, cellAt_cellsSet]
  split <;> rfl

@[simp] theorem get_set_self (m : Memory) (a v : Word) : (m.set a v).get a = v := by simp [get_set]

theorem get_set_other (m : Memory) {a b : Word} (v : Word) (h : b ≠ a) : (m.set a v).get b = m.get b := by
  simp [get_set, h]

/-- 20_memory.md R29: what an address reads as after `destroy`. -/
theorem get_destroy (m : Memory) (a b : Word) : (m.destroy a).get b = if b = a then 0 else m.get b := by
  simp only [Memory.get, Memory.find?, Memory.destroy, cellAt_filter]
  split <;> rfl

/-- 20_memory.md R27: an address with no entry reads the zero Word. -/
theorem get_unlisted (m : Memory) (a : Word) (h : a ∉ m.addresses) : m.get a = 0 := by
  simp [Memory.get, Memory.find?, (cellAt_eq_none_iff m.cells a).2 h, unlistedWord]

/-- 20_memory.md R28: the enumeration order after a write. -/
theorem addresses_set (m : Memory) (a v : Word) :
    (m.set a v).addresses = if a ∈ m.addresses then m.addresses else m.addresses ++ [a] :=
  map_fst_cellsSet m.cells a v

/-- 20_memory.md R29, R30: the enumeration order after `destroy`. -/
theorem addresses_destroy (m : Memory) (a : Word) : (m.destroy a).addresses = m.addresses.filter fun b => b ≠ a := by
  simp only [Memory.destroy, Memory.addresses, List.filter_map]
  rfl

/-- A write keeps the canonical form. -/
theorem wf_set {m : Memory} (h : m.wf) (a v : Word) : (m.set a v).wf := by
  unfold Memory.wf at *
  rw [addresses_set]
  split
  · exact h
  · rename_i hn
    exact List.nodup_append.2 ⟨h, List.nodup_singleton a, fun x hx y hy => by
      rintro rfl
      exact hn (by simpa [List.mem_singleton.1 hy] using hx)⟩

/-- `destroy` keeps the canonical form. -/
theorem wf_destroy {m : Memory} (h : m.wf) (a : Word) : (m.destroy a).wf := by
  unfold Memory.wf at *
  rw [addresses_destroy]
  exact h.filter _

/-- The memory at creation has the canonical form. -/
theorem wf_empty : Memory.empty.wf := List.nodup_nil

end Sys2Proof.Machine
end

