-- ==== Sys2Proof/Laws/OpcodeRows.lean ====
section
/-! SUPPORT. What a row of the opcode table asks of a word, in terms of its fields (30_encoding.md R47, R49). -/

namespace Sys2Proof

/-- A word under the R-type mask: opcode, shamt and funct stay. -/
theorem and_maskR (w : Word) :
    w &&& 0xFC0007FF#32 = (opcodeOf w ++ 0#15 ++ (shamtOf w ++ functOf w) : BitVec 32) := by
  have hw : w = (w.extractLsb' 26 6 ++ w.extractLsb' 11 15 ++ w.extractLsb' 0 11 : BitVec 32) := by
    iterate 2 rw [BitVec.extractLsb'_append_extractLsb'_eq_extractLsb' (by omega)]
    simp
  have hl : (shamtOf w ++ functOf w : BitVec 11) = w.extractLsb' 0 11 := by
    unfold shamtOf functOf
    rw [BitVec.extractLsb'_append_extractLsb'_eq_extractLsb' (by omega)]
  have hm : (0xFC0007FF#32 : BitVec 32) = (0x3F#6 ++ 0#15 ++ 0x7FF#11 : BitVec 32) := by decide
  have h6 : ∀ v : BitVec 6, v &&& 0x3F#6 = v := by decide
  have h11 : ∀ v : BitVec 11, v &&& 0x7FF#11 = v := fun v => BitVec.and_allOnes
  rw [hl, hm]
  conv_lhs => rw [hw]
  erw [BitVec.and_append, BitVec.and_append]
  rw [h6, h11]
  simp [opcodeOf]

/-- A word under the I-type and J-type mask: the opcode stays. -/
theorem and_maskI (w : Word) : w &&& 0xFC000000#32 = (opcodeOf w ++ 0#26 : BitVec 32) := by
  have hw : w = (w.extractLsb' 26 6 ++ w.extractLsb' 0 26 : BitVec 32) := by
    rw [BitVec.extractLsb'_append_extractLsb'_eq_extractLsb' (by omega)]
    simp
  have hm : (0xFC000000#32 : BitVec 32) = (0x3F#6 ++ 0#26 : BitVec 32) := by decide
  have h6 : ∀ v : BitVec 6, v &&& 0x3F#6 = v := by decide
  rw [hm]
  conv_lhs => rw [hw]
  erw [BitVec.and_append]
  rw [h6]
  simp [opcodeOf]

/-- Two words put together from an opcode and R-type constants are equal iff the parts are. -/
theorem fixedR_inj {op op' : BitVec 6} {sh sh' : BitVec 5} {f f' : BitVec 6} :
    (op ++ 0#15 ++ (sh ++ f) : BitVec 32) = (op' ++ 0#15 ++ (sh' ++ f') : BitVec 32) ↔
      op = op' ∧ sh = sh' ∧ f = f' := by
  constructor
  · intro h
    have h₁ := congrArg (BitVec.extractLsb' 26 6) h
    have h₂ := congrArg (BitVec.extractLsb' 6 5) h
    have h₃ := congrArg (BitVec.extractLsb' 0 6) h
    refine ⟨?_, ?_, ?_⟩
    · iterate 2 rw [BitVec.extractLsb'_append_eq_of_le (by omega)] at h₁
      iterate 2 rw [BitVec.extractLsb'_append_eq_of_le (by omega)] at h₁
      simpa using h₁
    · rw [BitVec.extractLsb'_append_eq_of_add_le (by omega), BitVec.extractLsb'_append_eq_of_le (by omega),
        BitVec.extractLsb'_append_eq_of_add_le (by omega), BitVec.extractLsb'_append_eq_of_le (by omega)] at h₂
      simpa using h₂
    · rw [BitVec.extractLsb'_append_eq_of_add_le (by omega), BitVec.extractLsb'_append_eq_of_add_le (by omega),
        BitVec.extractLsb'_append_eq_of_add_le (by omega), BitVec.extractLsb'_append_eq_of_add_le (by omega)] at h₃
      simpa using h₃
  · rintro ⟨rfl, rfl, rfl⟩
    rfl

/-- Two words put together from an opcode and zeros are equal iff the opcodes are. -/
theorem fixedI_inj {op op' : BitVec 6} : (op ++ 0#26 : BitVec 32) = (op' ++ 0#26 : BitVec 32) ↔ op = op' := by
  constructor
  · intro h
    have h₁ := congrArg (BitVec.extractLsb' 26 6) h
    rw [BitVec.extractLsb'_append_eq_of_le (by omega), BitVec.extractLsb'_append_eq_of_le (by omega)] at h₁
    simpa using h₁
  · rintro rfl
    rfl

/-- What an R-type row asks of a word. -/
theorem rowR_iff (w : Word) (f : BitVec 6) :
    w &&& 0xFC0007FF#32 = (0#6 ++ 0#15 ++ (0#5 ++ f) : BitVec 32) ↔
      opcodeOf w = 0 ∧ shamtOf w = 0 ∧ functOf w = f := by
  rw [and_maskR, fixedR_inj]
  rfl

/-- What an I-type or J-type row asks of a word. -/
theorem rowI_iff (w : Word) (op : BitVec 6) :
    w &&& 0xFC000000#32 = (op ++ 0#26 : BitVec 32) ↔ opcodeOf w = op := by
  rw [and_maskI, fixedI_inj]

/-- No row of the opcode table matches a word iff its fields are those of no instruction. -/
theorem no_row_matches_iff (w : Word) : (∀ r ∈ opcodeTable, w &&& r.mask ≠ r.pattern) ↔
   ¬ (opcodeOf w = 0 ∧ shamtOf w = 0 ∧ (functOf w = 0b000000 ∨ functOf w = 0b100010 ∨ functOf w = 0b100100 ∨ functOf w = 0b100101 ∨ functOf w = 0b101010)) ∧
   ¬ (opcodeOf w = 0b001000 ∨ opcodeOf w = 0b100011 ∨ opcodeOf w = 0b101011 ∨ opcodeOf w = 0b000100 ∨ opcodeOf w = 0b000010) := by
  have e1 : (0x00000000#32) = (0#6 ++ 0#15 ++ (0#5 ++ 0b000000#6) : BitVec 32) := by decide
  have e2 : (0x00000022#32) = (0#6 ++ 0#15 ++ (0#5 ++ 0b100010#6) : BitVec 32) := by decide
  have e3 : (0x00000024#32) = (0#6 ++ 0#15 ++ (0#5 ++ 0b100100#6) : BitVec 32) := by decide
  have e4 : (0x00000025#32) = (0#6 ++ 0#15 ++ (0#5 ++ 0b100101#6) : BitVec 32) := by decide
  have e5 : (0x0000002A#32) = (0#6 ++ 0#15 ++ (0#5 ++ 0b101010#6) : BitVec 32) := by decide
  have f1 : (0x20000000#32) = (0b001000#6 ++ 0#26 : BitVec 32) := by decide
  have f2 : (0x8C000000#32) = (0b100011#6 ++ 0#26 : BitVec 32) := by decide
  have f3 : (0xAC000000#32) = (0b101011#6 ++ 0#26 : BitVec 32) := by decide
  have f4 : (0x10000000#32) = (0b000100#6 ++ 0#26 : BitVec 32) := by decide
  have f5 : (0x08000000#32) = (0b000010#6 ++ 0#26 : BitVec 32) := by decide
  have h : (∀ r ∈ opcodeTable, w &&& r.mask ≠ r.pattern) ↔
     (¬ (w &&& 0xFC0007FF#32 = 0x00000000#32) ∧ ¬ (w &&& 0xFC0007FF#32 = 0x00000022#32) ∧ ¬ (w &&& 0xFC0007FF#32 = 0x00000024#32) ∧
      ¬ (w &&& 0xFC0007FF#32 = 0x00000025#32) ∧ ¬ (w &&& 0xFC0007FF#32 = 0x0000002A#32) ∧ 
      ¬ (w &&& 0xFC000000#32 = 0x20000000#32) ∧ ¬ (w &&& 0xFC000000#32 = 0x8C000000#32) ∧ ¬ (w &&& 0xFC000000#32 = 0xAC000000#32) ∧
      ¬ (w &&& 0xFC000000#32 = 0x10000000#32) ∧ ¬ (w &&& 0xFC000000#32 = 0x08000000#32)) := by
    simp [opcodeTable]
  rw [h, e1, e2, e3, e4, e5, f1, f2, f3, f4, f5]
  simp only [rowR_iff, rowI_iff]
  constructor
  · rintro ⟨a1, a2, a3, a4, a5, a6, a7, a8, a9, a10⟩
    refine ⟨?_, ?_⟩
    · rintro ⟨ho, hs, h | h | h | h | h⟩
      · exact a1 ⟨ho, hs, h⟩
      · exact a2 ⟨ho, hs, h⟩
      · exact a3 ⟨ho, hs, h⟩
      · exact a4 ⟨ho, hs, h⟩
      · exact a5 ⟨ho, hs, h⟩
    · rintro (h | h | h | h | h)
      · exact a6 h
      · exact a7 h
      · exact a8 h
      · exact a9 h
      · exact a10 h
  · rintro ⟨a, b⟩
    refine ⟨?_, ?_, ?_, ?_, ?_, ?_, ?_, ?_, ?_, ?_⟩
    · exact fun ⟨ho, hs, h⟩ => a ⟨ho, hs, .inl h⟩
    · exact fun ⟨ho, hs, h⟩ => a ⟨ho, hs, .inr (.inl h)⟩
    · exact fun ⟨ho, hs, h⟩ => a ⟨ho, hs, .inr (.inr (.inl h))⟩
    · exact fun ⟨ho, hs, h⟩ => a ⟨ho, hs, .inr (.inr (.inr (.inl h)))⟩
    · exact fun ⟨ho, hs, h⟩ => a ⟨ho, hs, .inr (.inr (.inr (.inr h)))⟩
    · exact fun h => b (.inl h)
    · exact fun h => b (.inr (.inl h))
    · exact fun h => b (.inr (.inr (.inl h)))
    · exact fun h => b (.inr (.inr (.inr (.inl h))))
    · exact fun h => b (.inr (.inr (.inr (.inr h))))

end Sys2Proof
end

