-- ==== Sys2Proof/Laws/PerInstr.lean ====
section
/-! SUPPORT. Statements made instruction by instruction, one lemma per constructor. Family RowMatch: the word of an
instruction has the bits its row of the opcode table fixes (30_encoding.md R47, columns match and mask). -/

namespace Sys2Proof.Laws

/-- The row of the opcode table whose mnemonic is the instruction's matches its word. -/
def RowMatch.Statement (i : Instr) : Prop :=
  ∃ r ∈ opcodeTable, r.mnemonic = i.mnemonic ∧ r.matchesWord (encode i) = true

/-- An R-type word is matched by the row of its funct. -/
theorem matches_encodeR (m : Mnemonic) (f : BitVec 6) (rs rt rd : RegIdx) (p : Word)
    (hp : p = (0#6 ++ 0#15 ++ (0#5 ++ f) : BitVec 32)) :
    (OpcodeRow.mk m 0xFC0007FF p).matchesWord (encodeR f rs rt rd) = true := by
  have := (rowR_iff (encodeR f rs rt rd) f).2 ⟨by simp, by simp, by simp⟩
  simpa [OpcodeRow.matchesWord, hp] using this

/-- An I-type word is matched by the row of its opcode. -/
theorem matches_encodeI (m : Mnemonic) (op : BitVec 6) (rs rt : RegIdx) (imm16 : BitVec 16) (p : Word)
    (hp : p = (op ++ 0#26 : BitVec 32)) :
    (OpcodeRow.mk m 0xFC000000 p).matchesWord (encodeI op rs rt imm16) = true := by
  have := (rowI_iff (encodeI op rs rt imm16) op).2 (by simp)
  simpa [OpcodeRow.matchesWord, hp] using this

theorem RowMatch.add (rs rt rd : RegIdx) : RowMatch.Statement (.add rs rt rd) :=
  ⟨_, by simp [opcodeTable], rfl, matches_encodeR .add _ rs rt rd 0x00000000 (by decide)⟩

theorem RowMatch.sub (rs rt rd : RegIdx) : RowMatch.Statement (.sub rs rt rd) :=
  ⟨_, by simp [opcodeTable], rfl, matches_encodeR .sub _ rs rt rd 0x00000022 (by decide)⟩

theorem RowMatch.and (rs rt rd : RegIdx) : RowMatch.Statement (.and rs rt rd) :=
  ⟨_, by simp [opcodeTable], rfl, matches_encodeR .and _ rs rt rd 0x00000024 (by decide)⟩

theorem RowMatch.or (rs rt rd : RegIdx) : RowMatch.Statement (.or rs rt rd) :=
  ⟨_, by simp [opcodeTable], rfl, matches_encodeR .or _ rs rt rd 0x00000025 (by decide)⟩

theorem RowMatch.slt (rs rt rd : RegIdx) : RowMatch.Statement (.slt rs rt rd) :=
  ⟨_, by simp [opcodeTable], rfl, matches_encodeR .slt _ rs rt rd 0x0000002A (by decide)⟩

theorem RowMatch.addi (rs rt : RegIdx) (imm16 : BitVec 16) : RowMatch.Statement (.addi rs rt imm16) :=
  ⟨_, by simp [opcodeTable], rfl, matches_encodeI .addi _ rs rt imm16 0x20000000 (by decide)⟩

theorem RowMatch.lw (rs rt : RegIdx) (imm16 : BitVec 16) : RowMatch.Statement (.lw rs rt imm16) :=
  ⟨_, by simp [opcodeTable], rfl, matches_encodeI .lw _ rs rt imm16 0x8C000000 (by decide)⟩

theorem RowMatch.sw (rs rt : RegIdx) (imm16 : BitVec 16) : RowMatch.Statement (.sw rs rt imm16) :=
  ⟨_, by simp [opcodeTable], rfl, matches_encodeI .sw _ rs rt imm16 0xAC000000 (by decide)⟩

theorem RowMatch.beq (rs rt : RegIdx) (imm16 : BitVec 16) : RowMatch.Statement (.beq rs rt imm16) :=
  ⟨_, by simp [opcodeTable], rfl, matches_encodeI .beq _ rs rt imm16 0x10000000 (by decide)⟩

theorem RowMatch.j (addr26 : BitVec 26) : RowMatch.Statement (.j addr26) := by
  refine ⟨⟨.j, 0xFC000000, 0x08000000⟩, by simp [opcodeTable], rfl, ?_⟩
  have := (rowI_iff (encodeJ 0b000010#6 addr26) 0b000010#6).2 (by simp)
  have hp : (0x08000000#32 : Word) = (0b000010#6 ++ 0#26 : BitVec 32) := by decide
  simpa [OpcodeRow.matchesWord, encode, hp] using this

end Sys2Proof.Laws
end

