-- ==== Sys2Proof/Laws/Sequencer.lean ====
section
/-! SUPPORT. The current word of an instruction, and what one `nextClock` does, said once (40_sequencer.md R75, R76). -/

namespace Sys2Proof.Machine

theorem decodeFunct_error_or_ok (w : Word) :
    (∃ e, decodeFunct w = .error e) ∨ ∃ i, decodeFunct w = .ok i := by
  cases h : decodeFunct w with
  | error e => exact .inl ⟨e, rfl⟩
  | ok i => exact .inr ⟨i, rfl⟩

@[simp] theorem nextClock_nil {s : State} (h : s.queue = []) : nextClock s = .next s := by
  simp [nextClock, h]

theorem nextClock_cons {s : State} {p : PhaseKind} {rest : List PhaseKind} (h : s.queue = p :: rest) :
    nextClock s = runPhase p s := by
  simp [nextClock, h]

@[simp] theorem withCur_some {s : State} {w : Word} (h : s.cur = some w) (f : Word → Result) : withCur s f = f w := by
  simp [withCur, h]

@[simp] theorem withCur_none {s : State} (h : s.cur = none) (f : Word → Result) :
    withCur s f = stopUndefined .cur s := by
  simp [withCur, h]

@[simp] theorem withAluResult_some {s : State} {v : Word} (h : s.aluResult = some v) (f : Word → Result) :
    withAluResult s f = f v := by
  simp [withAluResult, h]

@[simp] theorem withAluResult_none {s : State} (h : s.aluResult = none) (f : Word → Result) :
    withAluResult s f = stopUndefined .aluResult s := by
  simp [withAluResult, h]

/-- A phase frame that completes, inverted. -/
theorem phaseFrame_eq_next {c : Ctrl} {u : Except BoundaryError State} {s t : State} (h : phaseFrame c u s = .next t) :
    ∃ v, u = .ok v ∧ t = { v with ctrl := c, queue := s.queue.tail } := by
  cases u with
  | error e => cases h
  | ok v => exact ⟨v, rfl, by cases h; rfl⟩

/-- Everything a phase that completes can do: it takes itself off the queue, leaves the lines it asserts in `ctrl`, and
makes the update of its kind (40_sequencer.md R66 to R73). -/
theorem runPhase_cases {p : PhaseKind} {s t : State} (h : runPhase p s = .next t) :
    ∃ l, (∀ w, s.cur = some w → l = wordAluLines w) ∧
      ((p = .fetch ∧ FetchRoom s ∧ t = { s with pc := s.pc + 4, ctrl := phaseCtrl p l, queue := s.queue.tail }) ∨
       (p = .execute ∧ ∃ w v, s.cur = some w ∧
          aluCompute (l.map (·.op.code)) (operandA w s) (operandB l w s) = .ok v ∧
          t = { s with aluResult := some v, ctrl := phaseCtrl p l, queue := s.queue.tail }) ∨
       (p = .aluWriteback ∧ ∃ w v, s.cur = some w ∧ s.aluResult = some v ∧
          t = { s.setX (rsOf w) v with ctrl := phaseCtrl p l, queue := s.queue.tail }) ∨
       (p = .memRead ∧ ∃ w a, s.cur = some w ∧ s.aluResult = some a ∧
          t = { s.setX (rsOf w) (s.memRead a) with ctrl := phaseCtrl p l, queue := s.queue.tail }) ∨
       (p = .memWrite ∧ ∃ w a, s.cur = some w ∧ s.aluResult = some a ∧
          t = { s.memWrite a (s.x (rsOf w)) with ctrl := phaseCtrl p l, queue := s.queue.tail }) ∨
       (p = .branch ∧ ∃ w, s.cur = some w ∧ (s.x (rsOf w) = s.x (rtOf w) → TargetFits s.pc (imm16Of w)) ∧
          t = { s with
            pc := if s.x (rsOf w) = s.x (rtOf w) then BitVec.ofInt 32 (branchTarget s.pc (imm16Of w)) else s.pc,
            ctrl := phaseCtrl p l, queue := s.queue.tail }) ∨
       (p = .jump ∧ ∃ w, s.cur = some w ∧
          t = { s with pc := jumpTarget s.pc (addr26Of w), ctrl := phaseCtrl p l, queue := s.queue.tail })) := by
  rcases Option.eq_none_or_eq_some s.cur with hc | ⟨w, hc⟩
  · cases p with
    | fetch =>
      refine ⟨none, by simp [hc], .inl ⟨rfl, ?_⟩⟩
      simp only [runPhase, fetchPhase_eq] at h
      split at h
      · cases h; exact ⟨‹_›, rfl⟩
      · cases h
    | execute => simp [runPhase, hc, stopUndefined] at h
    | aluWriteback => simp [runPhase, hc, stopUndefined] at h
    | memRead => simp [runPhase, hc, stopUndefined] at h
    | memWrite => simp [runPhase, hc, stopUndefined] at h
    | branch => simp [runPhase, hc, stopUndefined] at h
    | jump => simp [runPhase, hc, stopUndefined] at h
  · refine ⟨wordAluLines w, by simp [hc], ?_⟩
    cases p with
    | fetch =>
      refine .inl ⟨rfl, ?_⟩
      simp only [runPhase, fetchPhase_eq] at h
      split at h
      · cases h; exact ⟨‹_›, rfl⟩
      · cases h
    | execute =>
      refine .inr (.inl ⟨rfl, ?_⟩)
      simp only [runPhase, withCur_some hc] at h
      obtain ⟨v, hv, rfl⟩ := phaseFrame_eq_next h
      cases ha : aluCompute ((wordAluLines w).map (·.op.code)) (operandA w s) (operandB (wordAluLines w) w s) with
      | error e => simp [ha] at hv
      | ok r =>
        rw [ha] at hv
        cases hv
        exact ⟨w, r, hc, ha, rfl⟩
    | aluWriteback =>
      refine .inr (.inr (.inl ⟨rfl, ?_⟩))
      simp only [runPhase, withCur_some hc] at h
      cases ha : s.aluResult with
      | none => simp [aluWritebackPhase, ha, stopUndefined] at h
      | some v =>
        rw [aluWritebackPhase_of_some _ _ ha] at h
        cases h
        exact ⟨w, v, hc, rfl, rfl⟩
    | memRead =>
      refine .inr (.inr (.inr (.inl ⟨rfl, ?_⟩)))
      simp only [runPhase, withCur_some hc] at h
      cases ha : s.aluResult with
      | none => simp [memReadPhase, ha, stopUndefined] at h
      | some v =>
        rw [memReadPhase_of_some _ ha] at h
        cases h
        exact ⟨w, v, hc, rfl, rfl⟩
    | memWrite =>
      refine .inr (.inr (.inr (.inr (.inl ⟨rfl, ?_⟩))))
      simp only [runPhase, withCur_some hc] at h
      cases ha : s.aluResult with
      | none => simp [memWritePhase, ha, stopUndefined] at h
      | some v =>
        rw [memWritePhase_of_some _ ha] at h
        cases h
        exact ⟨w, v, hc, rfl, rfl⟩
    | branch =>
      refine .inr (.inr (.inr (.inr (.inr (.inl ⟨rfl, ?_⟩)))))
      simp only [runPhase, withCur_some hc, branchPhase_eq] at h
      by_cases he : s.x (rsOf w) = s.x (rtOf w)
      · rw [if_pos he] at h
        split at h
        · cases h
          exact ⟨w, hc, fun _ => ‹_›, by rw [if_pos he]; rfl⟩
        · cases h
      · rw [if_neg he] at h
        cases h
        exact ⟨w, hc, fun e => absurd e he, by rw [if_neg he]; rfl⟩
    | jump =>
      refine .inr (.inr (.inr (.inr (.inr (.inr ⟨rfl, w, hc, ?_⟩)))))
      simp only [runPhase, withCur_some hc, jumpPhase_eq] at h
      cases h
      rfl

end Sys2Proof.Machine
end

