-- ==== Sys2Proof/Tests/Slice0.lean ====
section
/-! SUPPORT. The model's own tests. The expected values are those of 95_test_vectors.md (the section stands in each
docstring); the `witness_` theorems show states and operands that meet the hypotheses of each obligation, clause by
clause, at the boundaries. -/

namespace Sys2Proof.Tests

open Sys2Proof.Machine

/-- A state with the given pc and registers, everything else as after reset. -/
def machine (pc : Word) (regs : List (RegIdx × Word)) : State :=
  regs.foldl (fun s e => s.setX e.1 e.2) { State.reset with pc := pc }

/-- The same with one cell of memory. -/
def machineMem (pc : Word) (regs : List (RegIdx × Word)) (a v : Word) : State := (machine pc regs).memWrite a v

/-- A state with register 0 hardwired. -/
def hardwired : State := { machine 0x100 [] with zeroHardwired := true }

/-- What `f` reads of the next state, if there is one. -/
def after {α : Type} (r : Result) (f : State → α) : Option α :=
  match r with
  | .next t => some (f t)
  | .fault _ => none
  | .refused _ => none

/-- The error raised and what `f` reads of the state kept, if an error was raised. -/
def raisedWith {α : Type} (r : Result) (f : State → α) : Option (BoundaryError × α) :=
  match r with
  | .fault (.raised e k) => some (e, f k)
  | .fault (.undefinedSlot _ _) => none
  | .next _ => none
  | .refused _ => none

/-- The outcome is a next state. -/
def completes (r : Result) : Bool := (after r fun _ => ()).isSome

/-- The outcome is an error raised. -/
def raises (r : Result) : Bool := (raisedWith r fun _ => ()).isSome

theorem next_of_after {α : Type} {r : Result} {f : State → α} {v : α} (h : after r f = some v) :
    ∃ t, r = .next t ∧ f t = v := by
  cases r with
  | next t => exact ⟨t, rfl, Option.some.inj h⟩
  | fault e => cases h
  | refused e => cases h

theorem next_of_completes {r : Result} (h : completes r = true) : ∃ t, r = .next t := by
  cases r with
  | next t => exact ⟨t, rfl⟩
  | fault e => cases h
  | refused e => cases h

theorem fault_of_raises {r : Result} (h : raises r = true) : ∃ e k, r = .fault (.raised e k) := by
  cases r with
  | next t => cases h
  | refused e => cases h
  | fault f =>
    cases f with
    | raised e k => exact ⟨e, k, rfl⟩
    | undefinedSlot sl k => cases h

/-- A next state with a property that can be decided. -/
theorem next_where {r : Result} {P : State → Prop} [DecidablePred P] (h : after r (fun t => decide (P t)) = some true) :
    ∃ t, r = .next t ∧ P t := by
  obtain ⟨t, ht, hp⟩ := next_of_after h
  exact ⟨t, ht, of_decide_eq_true hp⟩

/-- An idle machine with its program held by the host meets the invariant. -/
theorem inv_idle {s : State} (hm : s.mem.wf) (hi : ImageWf s) (hq : s.queue = []) (hc : s.cur = none)
    (hl : s.ctrl = Ctrl.inert) : MachineInv s :=
  { memWf := hm, imageWf := hi, curLegal := by simp [hc], queueBelongs := .inl hq,
    aluReady := by simp [AluReady, hq], ctrlAsserted := .inl hl }

/-! ### Words: well-formedness, decoding (30_encoding.md; 95_test_vectors.md S5, S6, S8, 2.1, 2.2) -/

theorem test_wellformed_refuses_opcode : legalWord 0xFC000000 = false ∧ legalWord 0x0C000000 = false := by decide
theorem test_wellformed_refuses_funct : legalWord 0x00000020 = false ∧ legalWord 0x0000002B = false := by decide
theorem test_wellformed_refuses_shamt : legalWord 0x00000040 = false := by decide
theorem test_wellformed_admits : legalWord 0x00000000 = true ∧ legalWord 0x0BFFFFFF = true := by decide

theorem test_decode_add : decode 0b00000000001000100001100000000000 = .ok (.add 1 2 3) := by decide
theorem test_decode_sub : decode 0b00000000100001010011000000100010 = .ok (.sub 4 5 6) := by decide
theorem test_decode_and : decode 0b00000000111010000100100000100100 = .ok (.and 7 8 9) := by decide
theorem test_decode_or : decode 0b00000001010010110110000000100101 = .ok (.or 10 11 12) := by decide
theorem test_decode_slt : decode 0b00000001101011100111100000101010 = .ok (.slt 13 14 15) := by decide
theorem test_decode_addi : decode 0b00100000001000110000000000001111 = .ok (.addi 1 3 15) := by decide
theorem test_decode_lw : decode 0b10001100001000100000000010000000 = .ok (.lw 1 2 128) := by decide
theorem test_decode_sw : decode 0b10101100001000100000000010000000 = .ok (.sw 1 2 128) := by decide
theorem test_decode_beq : decode 0b00010000001000101111111111111101 = .ok (.beq 1 2 0xFFFD) := by decide
theorem test_decode_j : decode 0b00001000000000000000010000000000 = .ok (.j 1024) := by decide
theorem test_decode_rejects :
    decode 0x00000040 = .error (.nonzeroShamt 1) ∧ decode 0x00000020 = .error (.unlistedFunct 0x20) ∧
    decode 0xFC000000 = .error (.unlistedOpcode 0x3F) := by decide
theorem test_decodedRecord :
    decodedRecord 0x1022FFFD = .ok
      { mnemonic := .beq, format := .I, rs := 1, rt := 2, rd := 31, shamt := 31, funct := 0x3D, imm16 := 0xFFFD,
        addr26 := 0x022FFFD, word := 0x1022FFFD } := by decide
theorem test_decodeTableWord :
    decodeTableWord 32 0x00221800 = some (.add 1 2 3) ∧ decodeTableWord 32 0xFC000000 = none := by decide

/-! ### One instruction (95_test_vectors.md 2.3 to 2.6, 2.9) -/

theorem test_add_sum :
    after (exec (.add 1 2 3) (machine 0x100 [(2, 0xFFFFFFFF), (3, 0xFFFFFFFF)])) (fun t => (t.x 1, t.pc)) =
      some (0xFFFFFFFE, 0x104) := by decide
theorem test_add_overflow :
    raisedWith (exec (.add 1 2 3) (machine 0x100 [(2, 0x7FFFFFFF), (3, 1)]))
        (fun k => (k.pc, k.queue, k.aluResult, k.x 1)) =
      some (.range 2147483648 32, 0x104, [.execute, .aluWriteback], none, 0) ∧
    raisedWith (exec (.add 1 2 3) (machine 0x100 [(2, 0x80000000), (3, 0x80000000)])) (fun k => k.ctrl) =
      some (.range (-4294967296) 32, { Ctrl.inert with pcWrite := 1, pcSource := some 0b00 }) := by decide
theorem test_sub_borrow :
    after (exec (.sub 4 5 6) (machine 0x100 [(5, 5), (6, 7)])) (fun t => (t.x 4, t.pc)) =
      some (0xFFFFFFFE, 0x104) := by decide
theorem test_sub_lowest :
    after (exec (.sub 4 5 6) (machine 0x100 [(5, 0xFFFFFFFF), (6, 0x7FFFFFFF)])) (fun t => t.x 4) =
      some 0x80000000 := by decide
theorem test_and_bits :
    after (exec (.and 7 8 9) (machine 0x100 [(8, 0xF0F0F0F0), (9, 0xFF00FF00)])) (fun t => t.x 7) =
      some 0xF000F000 := by decide
theorem test_or_bits :
    after (exec (.or 10 11 12) (machine 0x100 [(11, 0xF0F0F0F0), (12, 0xFF00FF00)])) (fun t => t.x 10) =
      some 0xFFF0FFF0 := by decide
theorem test_slt_signed :
    after (exec (.slt 13 14 15) (machine 0x100 [(14, 0xFFFFFFFF), (15, 1)])) (fun t => (t.x 13, t.ctrl.aluOp)) =
      some (1, some 0b100) := by decide
theorem test_slt_extremes :
    after (exec (.slt 13 14 15) (machine 0x100 [(14, 1), (15, 0xFFFFFFFF)])) (fun t => t.x 13) = some 0 := by decide
theorem test_addi_negative :
    after (exec (.addi 2 3 0xFF6F) (machine 0x100 [])) (fun t => (t.x 2, t.ctrl.aluSelB)) =
      some (0xFFFFFF6F, some 0b10) := by decide
theorem test_addi_underflow :
    raisedWith (exec (.addi 1 1 0xFFFF) (machine 0x100 [(1, 0x80000000)])) (fun k => (k.x 1, k.pc)) =
      some (.range (-2147483649) 32, 0x80000000, 0x104) := by decide
theorem test_lw_negative_address :
    after (exec (.lw 1 2 0xFFFC) (machineMem 0x100 [] 0xFFFFFFFC 0x63)) (fun t => (t.x 1, t.aluResult)) =
      some (0x63, some 0xFFFFFFFC) := by decide
theorem test_lw_base_is_destination :
    after (exec (.lw 2 2 0) (machineMem 0x100 [(2, 16)] 16 5)) (fun t => (t.x 2, t.mem.addresses)) =
      some (5, [16]) := by decide
theorem test_sw_stores :
    after (exec (.sw 1 2 128) (machine 0x100 [(1, 42), (2, 1000)])) (fun t => (t.mem.cells, t.ctrl)) =
      some ([(0x468, 0x2A)], { Ctrl.inert with memWrite := 1, iOrD := some 1 }) := by decide
theorem test_sw_zero_is_listed :
    after (exec (.sw 1 2 0) (machine 0x100 [(2, 100)])) (fun t => t.mem.cells) = some [(100, 0)] := by decide
theorem test_beq_back :
    after (exec (.beq 1 2 0xFFFD) (machine 0x100 [(1, 5), (2, 5)])) (fun t => (t.pc, t.aluResult)) =
      some (0xF8, none) := by decide
theorem test_beq_below_zero :
    raisedWith (exec (.beq 1 2 0xFF9C) (machine 0x100 [])) (fun k => (k.pc, k.queue)) =
      some (.range (-140) 32, 0x104, [.branch]) := by decide
theorem test_j_region :
    after (exec (.j 4) (machine 0x7FFFFFFC [])) (fun t => t.pc) = some 0x80000010 := by decide
theorem test_j_far :
    after (exec (.j 67108863) (machine 0x100 [])) (fun t => t.pc) = some 0x0FFFFFFC := by decide
theorem test_register_zero :
    after (exec (.addi 0 0 5) hardwired) (fun t => (t.x 0, t.aluResult)) = some (0, some 5) ∧
    after (exec (.addi 0 0 5) (machine 0x100 [])) (fun t => t.x 0) = some 5 := by decide

/-! ### The sequencer and the host (95_test_vectors.md S9, S10, 2.5, 2.7, 2.8) -/

theorem test_clock_by_clock :
    after (andThen (simulate 0x8C220080 (machine 0x100 [(2, 1000)])) (clocks 2)) (fun t => (t.aluResult, t.queue)) =
      some (some 0x468, [.memRead]) := by decide
theorem test_host_write_between_phases :
    after (andThen (andThen (simulate 0x8C220080 (machine 0x100 [(2, 1000)])) (clocks 2))
        fun t => nextClock (memorySet 0x468 0x11 t)) (fun t => t.x 1) = some 0x11 := by decide
theorem test_simulate_discards :
    after (andThen (andThen (simulate 0x00221800 (machine 0x100 [(2, 5), (3, 7)])) (clocks 2)) (simulate 0x08000000))
        (fun t => (t.queue, t.pc, t.aluResult, t.x 1)) = some ([.fetch, .jump], 0x104, some 0xC, 0) := by decide
theorem test_destroy_and_set_again :
    ((((Memory.empty.set 5 1).set 6 2).destroy 5).set 5 3).cells = [(6, 2), (5, 3)] := by decide
theorem test_control_line_read :
    after (exec (.add 1 2 3) (machine 0x100 [])) (fun t => (t.ctrl.read .aluOp, t.ctrl.read .aluSelB, t.ctrl.read .iOrD))
      = some (some ['0', '0', '0'], some ['0', '0'], none) := by decide
theorem test_step_of_placed_word :
    after (step ((machine 0x100 [(2, 5), (3, 7)]).withFetchWord 32 0x00221800)) (fun t => (t.x 1, t.pc)) =
      some (0xC, 0x104) := by decide
theorem test_step_illegal_word :
    raisedWith (step (State.reset.withFetchWord 32 1)) (fun k => (k.pc, k.queue)) =
      some (.instructionNotFound (.word 1), 0, []) := by decide
theorem test_step_scheduled_call :
    after (step { machine 0x100 [] with calls := [.memorySet 7 9, .nextClock] }) (fun t => (t.mem.cells, t.calls)) =
      some ([(7, 9)], [.nextClock]) := by decide
theorem test_error_codes :
    BoundaryError.code (.instructionNotFound (.word 1)) = 1 ∧ BoundaryError.code (.registerNotFound []) = 2 ∧
    BoundaryError.code (.unsupportedOperation none) = 3 ∧ BoundaryError.code (.range 0 32) = 4 := by decide

/-! ### The assembler (95_test_vectors.md S3, S11, 2.2) -/

theorem test_assemble_forms :
    assemble "ADD $1, $2, $3".toList = .ok 0x00221800 ∧ assemble "addi $1,$2,+7".toList = .ok 0x20220007 ∧
    assemble "lw $1, 128 ( $2 )".toList = .ok 0x8C220080 ∧ assemble "beq $1, $2, 007".toList = .ok 0x10220007 := by
  decide
theorem test_assemble_names :
    assemble "add $zero, $ra, $sp".toList = .ok 0x001FE800 ∧ assemble "lw $t0, -32768($sp)".toList = .ok 0x8D1D8000 ∧
    assemble "addi $v0, $v1, -145".toList = .ok 0x2043FF6F ∧ assemble "j 1024".toList = .ok 0x08000400 := by decide
theorem test_assemble_shape :
    assemble "add $1,$2".toList = .error (.instructionNotFound (.text "add $1,$2".toList)) ∧
    assemble "add $1, $2, 5".toList = .error (.instructionNotFound (.text "add $1, $2, 5".toList)) ∧
    assemble "nop".toList = .error (.instructionNotFound (.text "nop".toList)) ∧
    assemble "foo $32".toList = .error (.instructionNotFound (.text "foo $32".toList)) := by decide
theorem test_assemble_registers :
    assemble "add $1, $2, $32".toList = .error (.registerNotFound "$32".toList) ∧
    assemble "add $01, $2, $3".toList = .error (.registerNotFound "$01".toList) ∧
    assemble "add $V0, $1, $2".toList = .error (.registerNotFound "$V0".toList) ∧
    assemble "addi $1, $99, 70000".toList = .error (.registerNotFound "$99".toList) := by decide
theorem test_assemble_ranges :
    assemble "addi $1, $2, 32768".toList = .error (.range 32768 16) ∧
    assemble "j 67108864".toList = .error (.range 67108864 26) ∧ assemble "j -1".toList = .error (.range (-1) 26) := by
  decide
theorem test_text_of_instruction : instrText (.lw 8 29 0x8000) = "lw $8, -32768($29)".toList := by decide

/-! ### Witnesses: codec, decoder, registers, memory, ALU -/

theorem witness_SignedCodecRoundTrip :
    1 ≤ 16 ∧ encS (-32768) 16 = .ok 0x8000 ∧ encS 32767 16 = .ok 0x7FFF ∧ encS 32768 16 = .error (.range 32768 16) ∧
    encS (-32769) 16 = .error (.range (-32769) 16) ∧ encS (-1) 1 = .ok 1 ∧ encS 0 1 = .ok 0 ∧
    encS 1 1 = .error (.range 1 1) := by decide
theorem witness_UnsignedCodecRoundTrip :
    encU 31 5 = .ok 31 ∧ encU 32 5 = .error (.range 32 5) ∧ encU 0 5 = .ok 0 ∧ encU (-1) 5 = .error (.range (-1) 5) ∧
    encU 67108863 26 = .ok 67108863 ∧ encU 4294967296 32 = .error (.range 4294967296 32) := by decide
theorem witness_EncodeOfDecode :
    decode 0x00221800 = .ok (.add 1 2 3) ∧ decode 0x0BFFFFFF = .ok (.j 67108863) ∧
    decode 0x1022FFFD = .ok (.beq 1 2 0xFFFD) := by decide
theorem witness_IllegalIffNoRowMatches :
    (∀ r ∈ opcodeTable, (0x24000000 : Word) &&& r.mask ≠ r.pattern) ∧
    (0x00000040 : Word).extractLsb' 26 6 = 0 ∧ (0x00000040 : Word).extractLsb' 6 5 ≠ 0 ∧
    (0x03FFFFE2 : Word).extractLsb' 26 6 = 0 ∧ (0x03FFFFE2 : Word).extractLsb' 6 5 ≠ 0 := by decide
theorem witness_RegisterReadAndWrite :
    hardwired.zeroHardwired = true ∧ (hardwired.setX 0 7).x 0 = 0 ∧ (hardwired.setX 31 7).x 31 = 7 ∧
    ((machine 0x100 []).setX 0 7).x 0 = 7 := by decide
theorem witness_RegisterWritesAreConfined :
    (machine 0x100 []).zeroHardwired = false ∧ hardwired.zeroHardwired = true ∧
    (∃ t, nextClock { machine 0x100 [] with queue := [.aluWriteback], cur := some 0x00221800, aluResult := some 9 } =
      .next t ∧ t.regs ≠ (machine 0x100 []).regs) ∧
    (∃ t, nextClock { machineMem 0x100 [] 4 8 with queue := [.memRead], cur := some 0x8C220080, aluResult := some 4 } =
      .next t ∧ t.regs ≠ (machine 0x100 []).regs) ∧
    ∃ t, performCall (.memorySet 1 2) (machine 0x100 []) = .next t :=
  ⟨by decide, by decide, next_where (by decide), next_where (by decide), next_of_completes (by decide)⟩
theorem witness_AliasAndIndexAreOneRegister :
    ("zero".toList, 0) ∈ aliasTable ∧ ("v0".toList, 2) ∈ aliasTable ∧ ("ra".toList, 31) ∈ aliasTable := by decide
theorem witness_MemoryGetSetDestroy :
    (Memory.empty.set 5 1).wf ∧ (5, 1) ∈ (Memory.empty.set 5 1).cells ∧ 6 ∉ (Memory.empty.set 5 1).addresses ∧
    5 ∈ (machineMem 0x100 [] 5 1).mem.addresses ∧ ∃ t, performCall (.memoryGet 5) (machineMem 0x100 [] 5 1) = .next t :=
  ⟨by decide, by decide, by decide, by decide, next_of_completes (by decide)⟩
theorem witness_MemoryInsertionOrder :
    5 ∈ ((Memory.empty.set 5 1).set 6 2).addresses ∧ 0xFFFFFFFF ∉ ((Memory.empty.set 5 1).set 6 2).addresses := by
  decide
theorem witness_MemoryOperationsKeepForm : ((Memory.empty.set 5 1).set 6 2).wf := by decide
theorem witness_AluComputesTheTable :
    Fits32 ((0x7FFFFFFF : Word).toInt + (0 : Word).toInt) ∧ ¬ Fits32 ((0x7FFFFFFF : Word).toInt + (1 : Word).toInt) ∧
    Fits32 ((0x80000000 : Word).toInt - (0 : Word).toInt) ∧ ¬ Fits32 ((0x80000000 : Word).toInt - (1 : Word).toInt) := by
  decide

/-! ### Witnesses: sequencer -/

/-- The pc from which FETCH raises, with a word to run there. -/
def lastPc : State := (machine 0xFFFFFFFC []).withFetchWord 32 0x00221800

theorem lastPc_inv : MachineInv lastPc :=
  inv_idle (by decide) (fun image h => by cases h; decide) rfl rfl rfl

theorem witness_UnsupportedCodesFailAndAreUnreachable :
    MachineInv lastPc ∧ ∃ e k, step lastPc = .fault (.raised e k) :=
  ⟨lastPc_inv, fault_of_raises (by decide)⟩
theorem witness_SimulateLoadsOrChangesNothing :
    (∀ i ∈ [Instr.add 1 2 3, .sub 1 2 3, .and 1 2 3, .or 1 2 3, .slt 1 2 3, .addi 1 2 3],
      i.mnemonic ∈ [Mnemonic.add, .sub, .and, .or, .slt, .addi]) ∧
    Instr.mnemonic (.lw 1 2 3) = .lw ∧ Instr.mnemonic (.sw 1 2 3) = .sw ∧ Instr.mnemonic (.beq 1 2 3) = .beq ∧
    Instr.mnemonic (.j 3) = .j ∧ legalWord 0x00000001 = false := by decide
theorem witness_NextClockConsumesOnePhase :
    (machine 0x100 []).queue = [] ∧
    (submitted (.j 4) [.fetch, .jump] (machine 0x100 [])).queue = [.fetch, .jump] ∧
    (∃ t, nextClock (submitted (.j 4) [.fetch, .jump] (machine 0x100 [])) = .next t) ∧
    ∃ e k, nextClock (submitted (.j 4) [.fetch, .jump] (machine 0xFFFFFFFC [])) = .fault (.raised e k) :=
  ⟨rfl, rfl, next_of_completes (by decide), fault_of_raises (by decide)⟩
theorem witness_CycleCounts :
    ((∃ t, simulate (encode (.add 1 2 3)) (machine 0x100 []) = .next t) ∧
      ∃ u, exec (.add 1 2 3) (machine 0x100 []) = .next u) ∧
    (∃ t, simulate (encode (.j 4)) (machine 0x100 []) = .next t) ∧ ∃ u, exec (.j 4) (machine 0x100 []) = .next u :=
  ⟨⟨next_of_completes (by decide), next_of_completes (by decide)⟩, next_of_completes (by decide),
    next_of_completes (by decide)⟩
theorem witness_SignalLevelReadingAgrees :
    (submitted (.lw 1 2 128) [.fetch, .execute, .memRead] (machine 0x100 [])).cur = some 0x8C220080 := by decide
/-- Every kind of phase completes somewhere; the branch taken and not taken. -/
theorem witness_OneUpdatePerPhase :
    (∃ t, nextClock (machine 0x100 []) = .next t) ∧
    (∃ t, nextClock (submitted (.j 4) [.fetch, .jump] (machine 0xFFFFFFFB [])) = .next t) ∧
    (∃ t, nextClock (submitted (.lw 1 2 128) [.execute, .memRead] (machine 0x104 [])) = .next t) ∧
    (∃ t, nextClock { submitted (.add 1 2 3) [.aluWriteback] (machine 0x104 []) with aluResult := some 9 } = .next t) ∧
    (∃ t, nextClock { submitted (.lw 1 2 3) [.memRead] (machineMem 0x104 [] 9 7) with aluResult := some 9 } = .next t) ∧
    (∃ t, nextClock { submitted (.sw 1 2 3) [.memWrite] (machine 0x104 []) with aluResult := some 9 } = .next t) ∧
    (∃ t, nextClock (submitted (.beq 1 2 3) [.branch] (machine 0x104 [])) = .next t) ∧
    (∃ t, nextClock (submitted (.beq 1 2 3) [.branch] (machine 0x104 [(1, 5)])) = .next t) ∧
    ∃ t, nextClock (submitted (.j 4) [.jump] (machine 0x104 [])) = .next t :=
  ⟨next_of_completes (by decide), next_of_completes (by decide), next_of_completes (by decide),
    next_of_completes (by decide), next_of_completes (by decide), next_of_completes (by decide),
    next_of_completes (by decide), next_of_completes (by decide), next_of_completes (by decide)⟩
/-- The phases' own clauses have their heads in `witness_OneUpdatePerPhase`. -/
theorem witness_ControlLinesDoNotPersist :
    ((∃ t, nextClock (submitted (.j 4) [.jump] (machine 0x104 [])) = .next t) ∧
      ∃ t', nextClock (submitted (.j 4) [.jump, .fetch] { machine 0x8 [] with ctrl := memReadCtrl }) = .next t') ∧
    (∃ t, simulate 0x08000004 { machine 0x8 [] with ctrl := memReadCtrl } = .next t) ∧
    (∃ t, nextClock { machine 0x8 [] with ctrl := memReadCtrl } = .next t) ∧
    (submitted (.slt 1 2 3) [.execute, .aluWriteback] (machine 0x104 [])).cur = some (encode (.slt 1 2 3)) ∧
    after (nextClock (submitted (.slt 1 2 3) [.execute, .aluWriteback] (machine 0x104 []))) (fun t => t.ctrl) =
      some { Ctrl.inert with aluSelA := some 1, aluSelB := some 0b00, aluOp := some 0b100 } :=
  ⟨⟨next_of_completes (by decide), next_of_completes (by decide)⟩, next_of_completes (by decide),
    next_of_completes (by decide), by decide, by decide⟩
theorem witness_OnlyExecuteWritesAluResult :
    (∃ t, nextClock (submitted (.lw 1 2 128) [.execute, .memRead] (machine 0x104 [])) = .next t ∧ t.aluResult ≠ none) ∧
    (∃ t, performCall .aluResult (machine 0x100 []) = .next t) ∧ MachineInv lastPc :=
  ⟨next_where (by decide), next_of_completes (by decide), lastPc_inv⟩
theorem witness_OnlyFetchBranchJumpWritePc :
    (∃ t, nextClock (submitted (.j 4) [.fetch, .jump] (machine 0xFFFFFFFB [])) = .next t ∧ t.pc ≠ 0xFFFFFFFB) ∧
    (∃ t, nextClock (submitted (.j 4) [.jump] (machine 0x104 [])) = .next t ∧ t.pc ≠ 0x104) ∧
    (∃ t, nextClock (submitted (.beq 1 2 3) [.branch] (machine 0x104 [])) = .next t ∧ t.pc ≠ 0x104) ∧
    ∃ t, performCall (.memoryDestroy 4) (machine 0x100 []) = .next t :=
  ⟨next_where (by decide), next_where (by decide), next_where (by decide), next_of_completes (by decide)⟩

/-! ### Witnesses: the ten instructions -/

/-- FETCH has room up to 0xFFFFFFFB, and none from 0xFFFFFFFC on. -/
theorem witness_room : FetchRoom (machine 0xFFFFFFFB []) ∧ ¬ FetchRoom (machine 0xFFFFFFFC []) ∧
    ¬ FetchRoom (machine 0xFFFFFFFF []) := by decide

theorem witness_AddWritesTheSum :
    (FetchRoom (machine 0x100 [(2, 0x7FFFFFFF), (3, 0)]) ∧
      Fits32 (((machine 0x100 [(2, 0x7FFFFFFF), (3, 0)]).x 2).toInt + ((machine 0x100 [(2, 0x7FFFFFFF), (3, 0)]).x 3).toInt)) ∧
    FetchRoom (machine 0x100 [(2, 0x7FFFFFFF), (3, 1)]) ∧
      ¬ Fits32 (((machine 0x100 [(2, 0x7FFFFFFF), (3, 1)]).x 2).toInt + ((machine 0x100 [(2, 0x7FFFFFFF), (3, 1)]).x 3).toInt) := by
  decide
theorem witness_SubWritesTheDifference :
    (FetchRoom (machine 0x100 [(5, 0xFFFFFFFF), (6, 0x7FFFFFFF)]) ∧
      Fits32 (((machine 0x100 [(5, 0xFFFFFFFF), (6, 0x7FFFFFFF)]).x 5).toInt -
        ((machine 0x100 [(5, 0xFFFFFFFF), (6, 0x7FFFFFFF)]).x 6).toInt)) ∧
    FetchRoom (machine 0x100 [(6, 0x80000000)]) ∧
      ¬ Fits32 (((machine 0x100 [(6, 0x80000000)]).x 5).toInt - ((machine 0x100 [(6, 0x80000000)]).x 6).toInt) := by decide
theorem witness_AndWritesTheConjunction : FetchRoom (machine 0xFFFFFFFB []) ∧ ¬ FetchRoom (machine 0xFFFFFFFC []) := by
  decide
theorem witness_OrWritesTheDisjunction : FetchRoom (machine 0xFFFFFFFB []) ∧ ¬ FetchRoom (machine 0xFFFFFFFC []) := by
  decide
theorem witness_SltWritesTheSignedComparison :
    FetchRoom (machine 0xFFFFFFFB []) ∧ ¬ FetchRoom (machine 0xFFFFFFFC []) := by decide
theorem witness_AddiAddsTheSignedImmediate :
    (FetchRoom (machine 0x100 [(3, 0x7FFFFFFE)]) ∧ Fits32 (((machine 0x100 [(3, 0x7FFFFFFE)]).x 3).toInt + (1 : BitVec 16).toInt)) ∧
    (FetchRoom (machine 0x100 [(3, 0x7FFFFFFF)]) ∧
      ¬ Fits32 (((machine 0x100 [(3, 0x7FFFFFFF)]).x 3).toInt + (1 : BitVec 16).toInt)) ∧
    tableMnemonic .I "addi $1, $2, 32768".toList = some .addi ∧
    parseOperands "addi $1, $2, 32768".toList = some [.reg "$1".toList, .reg "$2".toList, .imm 32768] ∧
    resolveToken "$1".toList = .ok 1 ∧ resolveToken "$2".toList = .ok 2 := by decide
theorem witness_LwLoadsTheWordAtTheAddress :
    (FetchRoom (machine 0x100 [(2, 0x7FFFFFFF)]) ∧ Fits32 (((machine 0x100 [(2, 0x7FFFFFFF)]).x 2).toInt + (0 : BitVec 16).toInt)) ∧
    (FetchRoom (machine 0x100 [(2, 0x7FFFFFFF)]) ∧
      ¬ Fits32 (((machine 0x100 [(2, 0x7FFFFFFF)]).x 2).toInt + (1 : BitVec 16).toInt)) ∧
    (0x468 : Word) = BitVec.ofInt 32 (((machine 0x100 [(2, 1000)]).x 2).toInt + (128 : BitVec 16).toInt) ∧
    5 ∉ Memory.empty.addresses := by decide
theorem witness_SwStoresTheWordAtTheAddress :
    (FetchRoom (machine 0x100 [(2, 4)]) ∧ Fits32 (((machine 0x100 [(2, 4)]).x 2).toInt + (0xFFF8 : BitVec 16).toInt) ∧
      (0xFFFFFFFC : Word) = BitVec.ofInt 32 (((machine 0x100 [(2, 4)]).x 2).toInt + (0xFFF8 : BitVec 16).toInt)) ∧
    FetchRoom (machine 0x100 [(2, 0x80000000)]) ∧
      ¬ Fits32 (((machine 0x100 [(2, 0x80000000)]).x 2).toInt + (0xFFFF : BitVec 16).toInt) := by decide
/-- Taken in range at both ends (targets 0 and 0xFFFFFFFC of a pc of 0x100 and 0xFFFFFFF0), taken out of range on both
sides, and not taken. -/
theorem witness_BeqBranchesOnEquality :
    (FetchRoom (machine 0x100 []) ∧ (machine 0x100 []).x 1 = (machine 0x100 []).x 2 ∧
      (((machine 0x100 []).pc.toNat : Int) + 4) + 4 * (0xFFBF : BitVec 16).toInt = 0 ∧
      (((machine 0x100 []).pc.toNat : Int) + 4) + 4 * (0xFFBE : BitVec 16).toInt < 0) ∧
    (FetchRoom (machine 0xFFFFFFF0 []) ∧ (machine 0xFFFFFFF0 []).x 1 = (machine 0xFFFFFFF0 []).x 2 ∧
      (((machine 0xFFFFFFF0 []).pc.toNat : Int) + 4) + 4 * (2 : BitVec 16).toInt = 4294967292 ∧
      (((machine 0xFFFFFFF0 []).pc.toNat : Int) + 4) + 4 * (3 : BitVec 16).toInt = 4294967296) ∧
    FetchRoom (machine 0x100 [(1, 5)]) ∧ (machine 0x100 [(1, 5)]).x 1 ≠ (machine 0x100 [(1, 5)]).x 2 := by decide
theorem witness_JumpGoesToItsTarget : FetchRoom (machine 0xFFFFFFFB []) ∧ ¬ FetchRoom (machine 0xFFFFFFFC []) := by
  decide

/-! ### Witnesses: frames, steps, invariant, errors, rules -/

theorem witness_RegisterWritersFrame :
    (∃ t, exec (.add 1 2 3) (machine 0x100 []) = .next t) ∧ (∃ t, exec (.sub 1 2 3) (machine 0x100 []) = .next t) ∧
    (∃ t, exec (.and 1 2 3) (machine 0x100 []) = .next t) ∧ (∃ t, exec (.or 1 2 3) (machine 0x100 []) = .next t) ∧
    (∃ t, exec (.slt 1 2 3) (machine 0x100 []) = .next t) ∧ (∃ t, exec (.addi 1 2 3) (machine 0x100 []) = .next t) ∧
    ∃ t, exec (.lw 1 2 3) (machine 0x100 []) = .next t :=
  ⟨next_of_completes (by decide), next_of_completes (by decide), next_of_completes (by decide), next_of_completes (by decide), next_of_completes (by decide), next_of_completes (by decide), next_of_completes (by decide)⟩
theorem witness_StoreFrame :
    (∃ t, exec (.sw 1 2 128) (machine 0x100 [(2, 1000)]) = .next t) ∧
    aluCompute (some 0b000) ((machine 0x100 [(2, 1000)]).x 2) (simm 128) = .ok 0x468 := ⟨next_of_completes (by decide), by decide⟩
theorem witness_ControlTransferFrame :
    (∃ t, exec (.beq 1 2 5) (machine 0x100 []) = .next t) ∧ ∃ t, exec (.j 5) (machine 0x100 []) = .next t :=
  ⟨next_of_completes (by decide), next_of_completes (by decide)⟩
theorem witness_HostCallsFrame :
    (∃ t, performCall (.memorySet 4 5) (machine 0x100 []) = .next t) ∧
    (∃ t, performCall (.memoryDestroy 4) (machineMem 0x100 [] 4 5) = .next t) ∧
    ∃ t, performCall (.control .aluOp) (machine 0x100 []) = .next t := ⟨next_of_completes (by decide), next_of_completes (by decide), next_of_completes (by decide)⟩
theorem witness_StepRunsTheDecodedInstruction :
    lastPc.calls = [] ∧ fetchWord lastPc = some 0x00221800 ∧ decode 0x00221800 = .ok (.add 1 2 3) ∧
    (State.reset.withFetchWord 32 1).calls = [] ∧ fetchWord (State.reset.withFetchWord 32 1) = some 1 ∧
    decode 1 = .error (.unlistedFunct 1) := by decide
theorem witness_StepPerformsCallsOrIdles :
    { machine 0x100 [] with calls := [.nextClock] }.calls = [.nextClock] ∧ (machine 0x100 []).calls = [] ∧
    fetchWord (machine 0x100 []) = none := by decide
theorem witness_RegisterZeroKeepsItsKind :
    hardwired.zeroHardwired = true ∧ (∃ t, step (hardwired.withFetchWord 32 0x20000005) = .next t) ∧
    (machine 0x100 []).zeroHardwired = false := ⟨rfl, next_of_completes (by decide), rfl⟩
theorem witness_StepKeepsInvariant :
    MachineInv (State.reset.withFetchWord 32 0x00221800) ∧
    ∃ t, step (State.reset.withFetchWord 32 0x00221800) = .next t :=
  ⟨inv_idle (by decide) (fun image h => by cases h; decide) rfl rfl rfl, next_of_completes (by decide)⟩
theorem witness_ErrorKeepsInvariant :
    MachineInv lastPc ∧ ∃ e k, step lastPc = .fault (.raised e k) :=
  ⟨lastPc_inv, fault_of_raises (by decide)⟩
theorem witness_CallCompletesOrChangesNothing :
    MachineInv lastPc ∧ performCall (.simulate 1) lastPc = .fault (.raised (.instructionNotFound (.word 1)) lastPc) :=
  ⟨lastPc_inv, rfl⟩
theorem witness_WhichPhaseCanRaiseWhat :
    (∃ e k, nextClock (submitted (.j 4) [.fetch, .jump] (machine 0xFFFFFFFC [])) = .fault (.raised e k)) ∧
    (∃ e k, nextClock (submitted (.add 1 2 3) [.execute, .aluWriteback] (machine 0x104 [(2, 0x7FFFFFFF), (3, 1)])) =
      .fault (.raised e k)) ∧
    (∃ e k, nextClock (submitted (.beq 1 2 3) [.execute] (machine 0x104 [])) = .fault (.raised e k)) ∧
    (∃ e k, nextClock (submitted (.beq 1 2 0xFF9C) [.branch] (machine 0x104 [])) = .fault (.raised e k)) ∧
    FetchRoom (machine 0x100 [(2, 0x7FFFFFFF), (3, 1)]) ∧
    ∃ e k, exec (.add 1 2 3) (machine 0x100 [(2, 0x7FFFFFFF), (3, 1)]) = .fault (.raised e k) :=
  ⟨fault_of_raises (by decide), fault_of_raises (by decide), fault_of_raises (by decide), fault_of_raises (by decide), by decide, fault_of_raises (by decide)⟩
theorem witness_InstructionErrorIsStuck :
    ∃ e k, exec (.add 1 2 3) (machine 0x100 [(2, 0x7FFFFFFF), (3, 1)]) = .fault (.raised e k) := fault_of_raises (by decide)
theorem witness_LoadAfterStoreGivesTheStoredWord :
    (machine 0x100 [(1, 42), (2, 1000)]).zeroHardwired = false ∧
    ∃ t, exec (.sw 1 2 128) (machine 0x100 [(1, 42), (2, 1000)]) = .next t ∧
      after (exec (.lw 0 2 128) t) (fun u => u.x 0) = some 42 := ⟨by decide, next_where (by decide)⟩
theorem witness_MemoryIsReadByLoadsOnly :
    (∃ t, exec (.add 1 2 3) (machine 0x100 []) = .next t) ∧ Instr.mnemonic (.add 1 2 3) ≠ .lw ∧
    Instr.mnemonic (.add 1 2 3) ≠ .sw := ⟨next_of_completes (by decide), by decide, by decide⟩
theorem witness_NoDependenceOnEarlierControlState :
    (∃ t, exec (.add 1 2 3) (machine 0x100 []) = .next t) ∧ ∃ t, exec (.j 5) (machine 0x100 []) = .next t :=
  ⟨next_of_completes (by decide), next_of_completes (by decide)⟩
theorem witness_RegisterNamesResolve :
    natText 31 = "31".toList ∧ natText 0 = "0".toList ∧ ("ra".toList, 31) ∈ aliasTable ∧
    (∀ i, resolveName (dropDollar "32".toList) ≠ some i) ∧ ∀ i, resolveName (dropDollar "$01".toList) ≠ some i := by
  decide
theorem witness_MatchAndParseAgree :
    assemble "j 1024".toList = .ok 0x08000400 ∧ assemble "j -1".toList = .error (.range (-1) 26) ∧
    parserMatches .R "j 1024".toList = false ∧ parserMatches .R "nop".toList = false ∧
    parserMatches .I "nop".toList = false ∧ parserMatches .J "nop".toList = false := by decide
theorem witness_ParserOrderIsNotObservable :
    (firstWord "ADD $1, $2, $3".toList).map Char.toLower = (firstWord "add".toList).map Char.toLower ∧
    parserMatches .R "ADD $1, $2, $3".toList = true ∧ parserMatches .I "Lw $1, 128($2)".toList = true ∧
    parserMatches .J "J 1024".toList = true ∧ parserMatches .R "nop".toList = false ∧
    parserMatches .I "nop".toList = false ∧ parserMatches .J "nop".toList = false := by decide
/-- Each shape: wrong shape, a fault in each operand alone and after good ones, the immediates' boundaries, no fault. -/
theorem witness_FirstOperandFaultIsReported :
    ((∀ p, p = Parser.R ∨ p = .I ∨ p = .J → parserMatches p "nop $32".toList = false) ∧
      tableMnemonic .R "slt $1, $2, $32".toList = some .slt ∧
      parseOperands "slt $1, $2, $32".toList = some [.reg "$1".toList, .reg "$2".toList, .reg "$32".toList] ∧
      resolveName (dropDollar "$1".toList) = some 1 ∧ resolveName (dropDollar "$2".toList) = some 2 ∧
      resolveName (dropDollar "$32".toList) = none ∧ parseOperands "add $1,$2".toList = some [.reg "$1".toList, .reg "$2".toList]) ∧
    (tableMnemonic .I "beq $1, $2, 32768".toList = some .beq ∧
      parseOperands "beq $1, $2, 32768".toList = some [.reg "$1".toList, .reg "$2".toList, .imm 32768] ∧
      parseOperands "beq $1, $2, 32767".toList = some [.reg "$1".toList, .reg "$2".toList, .imm 32767]) ∧
    (tableMnemonic .I "sw $1, -32769($32)".toList = some .sw ∧
      parseOperands "sw $1, -32769($32)".toList = some [.reg "$1".toList, .mem (-32769) "$32".toList] ∧
      parseOperands "sw $1, -32768($32)".toList = some [.reg "$1".toList, .mem (-32768) "$32".toList] ∧
      parseOperands "sw $1, $2".toList = some [.reg "$1".toList, .reg "$2".toList]) ∧
    tableMnemonic .J "j 67108864".toList = some .j ∧ parseOperands "j 67108864".toList = some [.imm 67108864] ∧
    parseOperands "j 67108863".toList = some [.imm 67108863] ∧ parseOperands "j -1".toList = some [.imm (-1)] ∧
    parseOperands "j $1".toList = some [.reg "$1".toList] := by
  refine ⟨⟨?_, by decide⟩, by decide⟩
  rintro p (rfl | rfl | rfl) <;> decide
theorem test_assemble_third_operand :
    assemble "sub $1, $2, $foo".toList = .error (.registerNotFound "$foo".toList) ∧
    assemble "lw $1, 0($32)".toList = .error (.registerNotFound "$32".toList) ∧
    assemble "sw $1, 40000($32)".toList = .error (.range 40000 16) := by decide
theorem witness_AccessorsReturnWhatTheStateHolds :
    (machineMem 0x100 [] 5 1).mem.wf ∧ (5, 1) ∈ (machineMem 0x100 [] 5 1).mem.cells ∧
    6 ∉ (machineMem 0x100 [] 5 1).mem.addresses ∧
    (∃ t, performCall (.memorySet 6 2) (machineMem 0x100 [] 5 1) = .next t ∧
      replyOf .memoryAddresses t = .addresses [5, 6]) ∧
    (∃ t, performCall (.memoryDestroy 5) (machineMem 0x100 [] 5 1) = .next t ∧
      replyOf .memoryAddresses t = .addresses []) ∧
    replyOf .aluResult State.reset = .slot none ∧ bitString 0b100#3 = ['1', '0', '0'] :=
  ⟨by decide, by decide, by decide, next_where (by decide), next_where (by decide), by decide, by decide⟩

end Sys2Proof.Tests
end

section
/-! PROOFS. A boundary call completes, or raises with the state as it was (00_scope.md R11). The one idea: everything a
call does runs through `phaseFrame`, which raises with the state it was given; the only other stops read a slot holding
⊥, and the invariant shuts those out. -/

namespace Sys2Proof.Machine

/-- The outcome `r` of a call made in state `s` is a next state, or one of the four errors with `s` kept. -/
def CompletesOrKeeps (s : State) (r : Result) : Prop :=
  (∃ t, r = .next t) ∨ ∃ e, r = .fault (.raised e s)

theorem completesOrKeeps_next (s t : State) : CompletesOrKeeps s (.next t) := .inl ⟨t, rfl⟩

theorem completesOrKeeps_raise (e : BoundaryError) (s : State) : CompletesOrKeeps s (raise e s) := .inr ⟨e, rfl⟩

theorem phaseFrame_completesOrKeeps (c : Ctrl) (u : Except BoundaryError State) (s : State) :
    CompletesOrKeeps s (phaseFrame c u s) := by
  cases u with
  | error e => exact completesOrKeeps_raise e s
  | ok t => exact completesOrKeeps_next s _

theorem withCur_completesOrKeeps {s : State} {f : Word → Result} (hcur : s.cur ≠ none)
    (h : ∀ w, CompletesOrKeeps s (f w)) : CompletesOrKeeps s (withCur s f) := by
  obtain ⟨w, hw⟩ := Option.ne_none_iff_exists'.1 hcur
  rw [withCur_some hw]
  exact h w

theorem withAluResult_completesOrKeeps {s : State} {f : Word → Result} (halu : s.aluResult ≠ none)
    (h : ∀ v, CompletesOrKeeps s (f v)) : CompletesOrKeeps s (withAluResult s f) := by
  obtain ⟨v, hv⟩ := Option.ne_none_iff_exists'.1 halu
  rw [withAluResult_some hv]
  exact h v

/-- A phase completes or raises in place, once the slots it reads hold Words. -/
theorem runPhase_completesOrKeeps {p : PhaseKind} {s : State} (hcur : s.cur ≠ none)
    (halu : readsAluResult p = true → s.aluResult ≠ none) : CompletesOrKeeps s (runPhase p s) := by
  cases p with
  | fetch =>
    rw [runPhase, fetchPhase]
    exact phaseFrame_completesOrKeeps _ _ s
  | execute => exact withCur_completesOrKeeps hcur fun _ => phaseFrame_completesOrKeeps _ _ s
  | aluWriteback =>
    exact withCur_completesOrKeeps hcur fun _ =>
      withAluResult_completesOrKeeps (halu rfl) fun _ => phaseFrame_completesOrKeeps _ _ s
  | memRead =>
    exact withCur_completesOrKeeps hcur fun _ =>
      withAluResult_completesOrKeeps (halu rfl) fun _ => phaseFrame_completesOrKeeps _ _ s
  | memWrite =>
    exact withCur_completesOrKeeps hcur fun _ =>
      withAluResult_completesOrKeeps (halu rfl) fun _ => phaseFrame_completesOrKeeps _ _ s
  | branch => exact withCur_completesOrKeeps hcur fun _ => phaseFrame_completesOrKeeps _ _ s
  | jump => exact withCur_completesOrKeeps hcur fun _ => phaseFrame_completesOrKeeps _ _ s

/-- A queue with a phase in it belongs to the instruction whose word is in `cur` (10_state.md R23). -/
theorem QueueBelongs.of_cons {s : State} {p : PhaseKind} {rest : List PhaseKind} (h : QueueBelongs s)
    (hq : s.queue = p :: rest) : ∃ i, s.cur = some (encode i) ∧ p :: rest <:+ phasesOf i := by
  rcases h with hnil | ⟨i, hcur, hsuffix⟩
  · simp [hq] at hnil
  · exact ⟨i, hcur, hq ▸ hsuffix⟩

theorem nextClock_completesOrKeeps {s : State} (hs : MachineInv s) : CompletesOrKeeps s (nextClock s) := by
  cases hq : s.queue with
  | nil =>
    rw [nextClock_nil hq]
    exact completesOrKeeps_next s s
  | cons p rest =>
    obtain ⟨i, hcur, -⟩ := hs.queueBelongs.of_cons hq
    rw [nextClock_cons hq]
    exact runPhase_completesOrKeeps (by simp [hcur]) (hs.aluReady p rest hq)

theorem simulate_completesOrKeeps (w : Word) (s : State) : CompletesOrKeeps s (simulate w s) := by
  unfold simulate
  split
  · exact completesOrKeeps_raise _ s
  · exact completesOrKeeps_next s _

theorem performRegistersRead_completesOrKeeps (name : Text) (s : State) :
    CompletesOrKeeps s (performCall (.registersRead name) s) := by
  unfold performCall
  dsimp only
  split
  · exact completesOrKeeps_next s s
  · exact completesOrKeeps_raise _ s

/-- Settles O46, call by call: only `simulate`, `nextClock` and `registers.read` can raise, each in place. -/
theorem callCompletesOrChangesNothing : Obligations.CallCompletesOrChangesNothing := by
  intro c s hs
  cases c with
  | simulate w => exact simulate_completesOrKeeps w s
  | nextClock => exact nextClock_completesOrKeeps hs
  | registersRead name => exact performRegistersRead_completesOrKeeps name s
  | memoryAddresses => exact completesOrKeeps_next s _
  | memoryGet addr => exact completesOrKeeps_next s _
  | memorySet addr value => exact completesOrKeeps_next s _
  | memoryDestroy addr => exact completesOrKeeps_next s _
  | aluResult => exact completesOrKeeps_next s _
  | control line => exact completesOrKeeps_next s _

end Sys2Proof.Machine
end

section
/-! PROOFS. The general registers (10_state.md R14 to R17): what a read and a write do, which calls write a register,
and that the aliases of a register and its index all name it. -/

namespace Sys2Proof.Machine

/-! ### Reads and writes (R15 to R17) -/

/-- A write that is not discarded replaces one element of the register file. -/
theorem setX_of_writable {s : State} {i : RegIdx} (h : s.zeroHardwired = false ∨ i ≠ 0) (v : Word) :
    s.setX i v = { s with regs := s.regs.set i v } := by
  have hw : (s.zeroHardwired && i == 0) = false := by
    rcases h with hz | hi
    · simp [hz]
    · simp [hi]
  simp [State.setX, hw]

theorem setX_zero_of_hardwired {s : State} (h : s.zeroHardwired = true) (v : Word) : s.setX 0 v = s := by
  simp [State.setX, h]

/-- Settles O7: the read is the definition's, and the write's two readings are `x_setX_self` and `x_setX_other`. -/
theorem registerReadAndWrite : Obligations.RegisterReadAndWrite := by
  intro s i j v
  refine ⟨by simp [State.x], ?_, ?_⟩
  · by_cases hji : j = i
    · rw [hji, if_pos rfl, x_setX_self]
    · rw [if_neg hji, x_setX_other s v hji]
  · rintro hz rfl
    exact setX_zero_of_hardwired hz v

/-! ### What writes a register (R17) -/

/-- A completed phase leaves the register file as it was, or it is one of the two that write field `rs` of the current
word. -/
theorem runPhase_regs {p : PhaseKind} {s t : State} (h : runPhase p s = .next t) :
    t.regs = s.regs ∨
      (p = .aluWriteback ∨ p = .memRead) ∧ ∃ w v, s.cur = some w ∧ ∀ j, t.x j = (s.setX (rsOf w) v).x j := by
  obtain ⟨l, -, hfetch | hexecute | hwriteback | hread | hwrite | hbranch | hjump⟩ := runPhase_cases h
  · obtain ⟨-, -, rfl⟩ := hfetch
    exact .inl rfl
  · obtain ⟨-, w, v, -, -, rfl⟩ := hexecute
    exact .inl rfl
  · obtain ⟨hp, w, v, hcur, -, rfl⟩ := hwriteback
    exact .inr ⟨.inl hp, w, v, hcur, x_congr rfl rfl⟩
  · obtain ⟨hp, w, a, hcur, -, rfl⟩ := hread
    exact .inr ⟨.inr hp, w, s.memRead a, hcur, x_congr rfl rfl⟩
  · obtain ⟨-, w, a, -, -, rfl⟩ := hwrite
    exact .inl rfl
  · obtain ⟨-, w, -, -, rfl⟩ := hbranch
    exact .inl rfl
  · obtain ⟨-, w, -, rfl⟩ := hjump
    exact .inl rfl

/-- A clock that changes the register file runs one of the two writing phases, and changes field `rs` only. -/
theorem nextClock_writes_rs {s t : State} (h : nextClock s = .next t) (hregs : t.regs ≠ s.regs) :
    ∃ rest w, (s.queue = .aluWriteback :: rest ∨ s.queue = .memRead :: rest) ∧ s.cur = some w ∧
      ∀ j, j ≠ rsOf w → t.x j = s.x j := by
  cases hq : s.queue with
  | nil =>
    rw [nextClock_nil hq] at h
    cases h
    exact absurd rfl hregs
  | cons p rest =>
    rw [nextClock_cons hq] at h
    obtain ⟨hp, w, v, hcur, hx⟩ := (runPhase_regs h).resolve_left hregs
    refine ⟨rest, w, by simpa using hp, hcur, fun j hj => ?_⟩
    rw [hx j, x_setX_other s v hj]

theorem simulate_eq_next {w : Word} {s t : State} (h : simulate w s = .next t) :
    ∃ i, decode w = .ok i ∧ t = { s with cur := some w, queue := phasesOf i } := by
  unfold simulate at h
  split at h
  · cases h
  · cases h
    exact ⟨_, ‹_›, rfl⟩

theorem performRegistersRead_eq_next {name : Text} {s t : State} (h : performCall (.registersRead name) s = .next t) :
    t = s := by
  unfold performCall at h
  dsimp only at h
  split at h
  · cases h
    rfl
  · cases h

/-- Only the clock reaches the register file from outside the core. -/
theorem performCall_regs {c : HostCall} {s t : State} (hc : c ≠ .nextClock) (h : performCall c s = .next t) :
    t.regs = s.regs := by
  cases c with
  | nextClock => exact absurd rfl hc
  | simulate w =>
    obtain ⟨i, -, rfl⟩ := simulate_eq_next h
    rfl
  | registersRead name => rw [performRegistersRead_eq_next h]
  | memoryAddresses => cases h; rfl
  | memoryGet addr => cases h; rfl
  | memorySet addr value => cases h; rfl
  | memoryDestroy addr => cases h; rfl
  | aluResult => cases h; rfl
  | control line => cases h; rfl

/-- Settles O8: the write itself, then what a clock and what every other call do to the register file. -/
theorem registerWritesAreConfined : Obligations.RegisterWritesAreConfined :=
  ⟨fun _ _ v h => setX_of_writable h v, fun _ v h => setX_zero_of_hardwired h v,
    fun _ _ => nextClock_writes_rs, fun _ _ _ => performCall_regs⟩

/-! ### Names of a register (R14) -/

/-- No table entry spells a numeral, and no two entries spell the same name (30_encoding.md R55, R56). -/
theorem resolveName_alias : ∀ e ∈ aliasTable, resolveName e.1 = some e.2 := by decide

theorem dropDollar_alias : ∀ e ∈ aliasTable, dropDollar e.1 = e.1 := by decide

@[simp] theorem resolveName_natText : ∀ i : RegIdx, resolveName (natText i) = some i := by decide

@[simp] theorem dropDollar_natText : ∀ i : RegIdx, dropDollar (natText i) = natText i := by decide

@[simp] theorem dropDollar_dollar (name : Text) : dropDollar ('$' :: name) = name := rfl

theorem registersRead_of_some {name : Text} {i : RegIdx} (h : resolveName (dropDollar name) = some i) (s : State) :
    registersRead s name = .ok (s.x i) := by
  simp [registersRead, h]

/-- Settles O9: with or without its `$`, either name resolves to the index, and the host's accessor and the assembler
look at nothing else of a name. -/
theorem aliasAndIndexAreOneRegister : Obligations.AliasAndIndexAreOneRegister := by
  intro s name i hmem
  have halias : resolveName name = some i := resolveName_alias (name, i) hmem
  have hbare : dropDollar name = name := dropDollar_alias (name, i) hmem
  exact ⟨registersRead_of_some (by rw [hbare, halias]) s,
    registersRead_of_some (by rw [dropDollar_dollar, halias]) s,
    registersRead_of_some (by simp) s, registersRead_of_some (by simp) s,
    resolveToken_of_some (by rw [dropDollar_dollar, halias]), resolveToken_of_some (by simp)⟩

end Sys2Proof.Machine
end

section
/-! PROOFS. The data memory (20_memory.md R26 to R30): what a read gives of the entries, what a write and a `destroy`
make of the enumeration, and that a call other than the host's `destroy` keeps memory or sets one cell of it. -/

namespace Sys2Proof.Machine

/-! ### Entries and the enumeration (R27 to R29) -/

/-- Where keys are unique, the first entry at an address is the only one. -/
theorem cellAt_of_mem {l : List (Word × Word)} {a v : Word} (hl : (l.map (·.1)).Nodup) (h : (a, v) ∈ l) :
    cellAt l a = some v := by
  induction l with
  | nil => cases h
  | cons c l ih =>
    obtain ⟨hc, htail⟩ := List.nodup_cons.1 hl
    rcases List.mem_cons.1 h with rfl | hmem
    · simp [cellAt]
    · have hne : c.1 ≠ a := fun e => hc (List.mem_map.2 ⟨(a, v), hmem, e.symm⟩)
      simpa [cellAt, hne] using ih htail hmem

theorem get_of_mem {m : Memory} {a v : Word} (hm : m.wf) (h : (a, v) ∈ m.cells) : m.get a = v := by
  simp [Memory.get, Memory.find?, cellAt_of_mem hm h]

theorem mem_addresses_set {m : Memory} {a : Word} (h : a ∈ m.addresses) (b v : Word) :
    a ∈ (m.set b v).addresses := by
  rw [addresses_set]
  split
  · exact h
  · exact List.mem_append_left _ h

theorem not_mem_addresses_destroy (m : Memory) (a : Word) : a ∉ (m.destroy a).addresses := by
  simp [addresses_destroy]

theorem destroy_unlisted {m : Memory} {a : Word} (h : a ∉ m.addresses) : m.destroy a = m := by
  have hkeep : ∀ c ∈ m.cells, decide (c.1 ≠ a) = true := fun c hc =>
    decide_eq_true fun e => h (List.mem_map.2 ⟨c, hc, e⟩)
  simp only [Memory.destroy, List.filter_eq_self.2 hkeep]

/-! ### What changes memory (R28, R29) -/

/-- A completed phase leaves memory as it was, or it is MEM_WRITE, which sets the cell at `aluResult` to register `rs`
of the current word. -/
theorem runPhase_mem {p : PhaseKind} {s t : State} (h : runPhase p s = .next t) :
    t.mem = s.mem ∨
      p = .memWrite ∧ ∃ w a, s.cur = some w ∧ s.aluResult = some a ∧ t.mem = s.mem.set a (s.x (rsOf w)) := by
  obtain ⟨l, -, hfetch | hexecute | hwriteback | hread | hwrite | hbranch | hjump⟩ := runPhase_cases h
  · obtain ⟨-, -, rfl⟩ := hfetch
    exact .inl rfl
  · obtain ⟨-, w, v, -, -, rfl⟩ := hexecute
    exact .inl rfl
  · obtain ⟨-, w, v, -, -, rfl⟩ := hwriteback
    exact .inl (setX_mem s _ _)
  · obtain ⟨-, w, a, -, -, rfl⟩ := hread
    exact .inl (setX_mem s _ _)
  · obtain ⟨hp, w, a, hcur, halu, rfl⟩ := hwrite
    exact .inr ⟨hp, w, a, hcur, halu, rfl⟩
  · obtain ⟨-, w, -, -, rfl⟩ := hbranch
    exact .inl rfl
  · obtain ⟨-, w, -, rfl⟩ := hjump
    exact .inl rfl

theorem nextClock_mem {s t : State} (h : nextClock s = .next t) :
    t.mem = s.mem ∨ ∃ a v, t.mem = s.mem.set a v := by
  cases hq : s.queue with
  | nil =>
    rw [nextClock_nil hq] at h
    cases h
    exact .inl rfl
  | cons p rest =>
    rw [nextClock_cons hq] at h
    exact (runPhase_mem h).imp_right fun ⟨_, w, a, _, _, hset⟩ => ⟨a, s.x (rsOf w), hset⟩

/-- A completed call other than the host's `destroy` keeps memory or sets one cell of it. -/
theorem performCall_mem {c : HostCall} {s t : State} (hc : ∀ a, c ≠ .memoryDestroy a)
    (h : performCall c s = .next t) : t.mem = s.mem ∨ ∃ a v, t.mem = s.mem.set a v := by
  cases c with
  | memoryDestroy addr => exact absurd rfl (hc addr)
  | nextClock => exact nextClock_mem h
  | memorySet addr value =>
    cases h
    exact .inr ⟨addr, value, rfl⟩
  | simulate w =>
    obtain ⟨i, -, rfl⟩ := simulate_eq_next h
    exact .inl rfl
  | registersRead name => exact .inl (congrArg State.mem (performRegistersRead_eq_next h))
  | memoryAddresses => cases h; exact .inl rfl
  | memoryGet addr => cases h; exact .inl rfl
  | aluResult => cases h; exact .inl rfl
  | control line => cases h; exact .inl rfl

theorem performCall_keeps_addresses {c : HostCall} {s t : State} (hc : ∀ a, c ≠ .memoryDestroy a)
    (h : performCall c s = .next t) {a : Word} (ha : a ∈ s.mem.addresses) : a ∈ t.mem.addresses := by
  rcases performCall_mem hc h with hkept | ⟨b, v, hset⟩
  · rw [hkept]
    exact ha
  · rw [hset]
    exact mem_addresses_set ha b v

/-- Settles O10: the reads by the laws of `get`, the enumeration after `destroy` by `addresses_destroy`, and the calls
by what each can do to memory. -/
theorem memoryGetSetDestroy : Obligations.MemoryGetSetDestroy :=
  ⟨fun _ _ _ => get_of_mem, get_unlisted, get_set, get_destroy, not_mem_addresses_destroy,
    fun _ _ => destroy_unlisted, fun _ _ _ hc h _ => performCall_keeps_addresses hc h⟩

end Sys2Proof.Machine
end

section
/-! PROOFS. The signed codec (30_encoding.md R36, R37): the encoder answers exactly on its range, and there the word it
answers reads back as the integer. -/

namespace Sys2Proof.Machine

/-! ### The encoder (R36) -/

theorem encS_of_mem_range {n : Int} {w : Nat} (hlo : -(2 ^ (w - 1) : Int) ≤ n) (hhi : n ≤ 2 ^ (w - 1) - 1) :
    encS n w = .ok (BitVec.ofInt w n) := by
  rw [encS, if_pos]
  push_cast
  exact ⟨hlo, hhi⟩

theorem encS_of_not_mem_range {n : Int} {w : Nat} (h : n < -(2 ^ (w - 1) : Int) ∨ 2 ^ (w - 1) - 1 < n) :
    encS n w = .error (.range n w) := by
  rw [encS, if_neg]
  push_cast
  omega

/-- The word the encoder answers holds `n mod 2^w`. -/
theorem natCast_toNat_ofInt (n : Int) (w : Nat) : ((BitVec.ofInt w n).toNat : Int) = n % 2 ^ w := by
  have hpos : (2 ^ w : Int) ≠ 0 := by positivity
  rw [BitVec.toNat_ofInt]
  push_cast
  exact Int.toNat_of_nonneg (Int.emod_nonneg n hpos)

theorem encS_32_eq_ok_iff (n : Int) : (∃ v, encS n 32 = .ok v) ↔ Fits32 n := by
  by_cases h : Fits32 n
  · exact iff_of_true ⟨_, encS_32_of_fits h⟩ h
  · exact iff_of_false (by simp [encS_32_of_not_fits h]) h

/-! ### The decoder (R37) -/

theorem decS_ofInt {n : Int} {w : Nat} (hw : 1 ≤ w) (hlo : -(2 ^ (w - 1) : Int) ≤ n) (hhi : n ≤ 2 ^ (w - 1) - 1) :
    decS (BitVec.ofInt w n) = n :=
  BitVec.toInt_ofInt_eq_self hw hlo (Int.lt_of_le_sub_one hhi)

/-- The top bit weighs `-2^(w-1)`: a word with it set reads `2^w` below its unsigned reading. -/
theorem decS_eq_toNat_sub {w : Nat} (v : BitVec w) :
    decS v = (v.toNat : Int) - 2 ^ w * (if v.getLsbD (w - 1) then 1 else 0) := by
  rw [decS, BitVec.toInt_eq_msb_cond, BitVec.msb_eq_getLsbD_last]
  split <;> simp

theorem encS_decS {w : Nat} (v : BitVec w) : encS (decS v) w = .ok v := by
  rw [decS, encS_of_mem_range (BitVec.le_toInt v) BitVec.toInt_le, BitVec.ofInt_toInt]

/-- Settles O1: the encoder on and off its range, the two inverses, and the range at width 32. -/
theorem signedCodecRoundTrip : Obligations.SignedCodecRoundTrip :=
  ⟨fun w hw =>
    ⟨fun n hlo hhi => ⟨BitVec.ofInt w n, encS_of_mem_range hlo hhi, natCast_toNat_ofInt n w, decS_ofInt hw hlo hhi⟩,
      fun _ => encS_of_not_mem_range, fun v => ⟨decS_eq_toNat_sub v, encS_decS v⟩⟩,
    encS_32_eq_ok_iff⟩

end Sys2Proof.Machine
end

section
/-! PROOFS. The assembler and `fromSymbolic` (30_encoding.md R53, R60). The one idea: every word the assembler answers
is the word of an instruction, and decoding the word of an instruction gives the instruction. -/

namespace Sys2Proof

/-! ### Decoding an encoded word (R48) -/

theorem decode_encodeR (f : BitVec 6) (rs rt rd : RegIdx) :
    decode (encodeR f rs rt rd) = decodeFunct (encodeR f rs rt rd) := by
  simp [decode]

/-- Each constructor's opcode, and its funct in the R format, selects its own arm of the decoder, and the fields read
back what was encoded. -/
@[simp] theorem decode_encode (i : Instr) : decode (encode i) = .ok i := by
  cases i with
  | add rs rt rd => simp [encode, decode_encodeR, decodeFunct]
  | sub rs rt rd => simp [encode, decode_encodeR, decodeFunct]
  | and rs rt rd => simp [encode, decode_encodeR, decodeFunct]
  | or rs rt rd => simp [encode, decode_encodeR, decodeFunct]
  | slt rs rt rd => simp [encode, decode_encodeR, decodeFunct]
  | addi rs rt imm16 => simp [encode, decode]
  | lw rs rt imm16 => simp [encode, decode]
  | sw rs rt imm16 => simp [encode, decode]
  | beq rs rt imm16 => simp [encode, decode]
  | j addr26 => simp [encode, decode]

end Sys2Proof

namespace Sys2Proof.Machine

/-! ### What the assembler answers (R53, R58) -/

theorem parserParse_of_not_matches {p : Parser} {line : Text} (h : parserMatches p line = false) :
    parserParse p line = .error (.instructionNotFound (.text line)) := by
  have hnone : tableMnemonic p line = none := by simpa [parserMatches] using h
  simp [parserParse, hnone]

theorem parserParse_eq_ok {p : Parser} {line : Text} {w : Word} (h : parserParse p line = .ok w) :
    ∃ i, w = encode i := by
  unfold parserParse at h
  split at h
  · cases h
  · split at h
    · cases h
    · next m _ _ operands _ =>
      cases hbuild : buildInstr line m operands with
      | error e =>
        rw [hbuild] at h
        cases h
      | ok i =>
        rw [hbuild] at h
        cases h
        exact ⟨i, rfl⟩

/-- The factory answers what a parser that matches answers, or no parser matches. -/
theorem assemble_cases (line : Text) :
    (∃ p, parserMatches p line = true ∧ assemble line = parserParse p line) ∨
      (∀ p, parserMatches p line = false) ∧ assemble line = .error (.instructionNotFound (.text line)) := by
  unfold assemble
  split
  · exact .inl ⟨.R, ‹_›, rfl⟩
  · split
    · exact .inl ⟨.I, ‹_›, rfl⟩
    · split
      · exact .inl ⟨.J, ‹_›, rfl⟩
      · refine .inr ⟨fun p => ?_, rfl⟩
        cases p <;> exact eq_false_of_ne_true ‹_›

theorem assemble_of_no_match {line : Text} (h : ∀ p, parserMatches p line = false) :
    assemble line = .error (.instructionNotFound (.text line)) := by
  obtain ⟨p, hp, -⟩ | ⟨-, herror⟩ := assemble_cases line
  · simp [h p] at hp
  · exact herror

theorem assemble_eq_ok {line : Text} {w : Word} (h : assemble line = .ok w) : ∃ i, w = encode i := by
  obtain ⟨p, -, hparse⟩ | ⟨-, herror⟩ := assemble_cases line
  · exact parserParse_eq_ok (hparse.symm.trans h)
  · cases herror.symm.trans h

/-! ### What `fromSymbolic` answers (R60) -/

theorem fromSymbolic_of_encode {line : Text} {i : Instr} (h : assemble line = .ok (encode i)) :
    fromSymbolic line = .ok { instr := i, word := encode i, phases := phasesOf i } := by
  simp [fromSymbolic, h]

theorem fromSymbolic_of_error {line : Text} {e : BoundaryError} (h : assemble line = .error e) :
    fromSymbolic line = .error e := by
  simp [fromSymbolic, h]

/-- Settles O54: a word the assembler answers is an instruction's word, which decodes; an error of the assembler is
passed on. -/
theorem matchAndParseAgree : Obligations.MatchAndParseAgree := by
  refine ⟨fun line w h => ?_, fun _ _ => fromSymbolic_of_error, fun _ _ => parserParse_of_not_matches,
    fun _ h => fromSymbolic_of_error (assemble_of_no_match h)⟩
  obtain ⟨i, rfl⟩ := assemble_eq_ok h
  exact ⟨i, decode_encode i, fromSymbolic_of_encode h⟩

end Sys2Proof.Machine
end

section
/-! PROOFS. The register-register instructions (41_alu_register.md R79 to R83). The one idea: the five differ in the
ALU's operation only, so each is settled by what the ALU answers (`aluApply`) on `x[rt]` and `x[rd]`. -/

namespace Sys2Proof.Machine

/-! ### The word (30_encoding.md R47) -/

/-- The bits the R-type mask keeps of an R-type word: zeros but for the funct. -/
theorem encodeR_and_maskR (f : BitVec 6) (rs rt rd : RegIdx) :
    encodeR f rs rt rd &&& 0xFC0007FF#32 = (0#6 ++ 0#15 ++ (0#5 ++ f) : BitVec 32) :=
  (rowR_iff _ f).2 ⟨opcodeOf_encodeR f rs rt rd, shamtOf_encodeR f rs rt rd, functOf_encodeR f rs rt rd⟩

/-! ### The family as one instruction -/

/-- The register-register instruction of an ALU operation. -/
def aluInstr : AluOp → RegIdx → RegIdx → RegIdx → Instr
  | .add => .add
  | .sub => .sub
  | .and => .and
  | .or => .or
  | .slt => .slt

theorem phasesOf_aluInstr (op : AluOp) (rs rt rd : RegIdx) :
    phasesOf (aluInstr op rs rt rd) = [.fetch, .execute, .aluWriteback] := by
  cases op <;> rfl

theorem exec_aluInstr (op : AluOp) (rs rt rd : RegIdx) (s : State) :
    exec (aluInstr op rs rt rd) s = aluRegister (aluInstr op rs rt rd) op rs rt rd s := by
  cases op with
  | add => exact exec_add rs rt rd s
  | sub => exact exec_sub rs rt rd s
  | and => exact exec_and rs rt rd s
  | or => exact exec_or rs rt rd s
  | slt => exact exec_slt rs rt rd s

/-- A completed FETCH of a freshly submitted instruction, in the terms of the statements. -/
theorem afterFetch_accept (i : Instr) (s : State) : afterFetch (accept i s) = fetched i (phasesOf i).tail s := rfl

section Room
variable {op : AluOp} {rs rt rd : RegIdx} {s : State}

/-- An operation the ALU answers is written back. -/
theorem exec_aluInstr_of_ok {v : Word} (hroom : FetchRoom s) (hv : aluApply op (s.x rt) (s.x rd) = .ok v) :
    exec (aluInstr op rs rt rd) s = .next (retiredAlu (aluInstr op rs rt rd) 0b00 op.code rs v s) := by
  rw [aluApply_eq] at hv
  rw [exec_aluInstr, aluRegister_of_room _ op rs rt rd hroom (by rw [phasesOf_aluInstr]; rfl)]
  split at hv
  · next hfits =>
    cases hv
    rw [if_pos hfits]
    rfl
  · cases hv

/-- An error of the ALU leaves FETCH done and EXECUTE at the head of the queue. -/
theorem exec_aluInstr_of_error {e : BoundaryError} (hroom : FetchRoom s)
    (he : aluApply op (s.x rt) (s.x rd) = .error e) :
    exec (aluInstr op rs rt rd) s =
      .fault (.raised e (fetched (aluInstr op rs rt rd) [.execute, .aluWriteback] s)) := by
  rw [aluApply_eq] at he
  rw [exec_aluInstr, aluRegister_of_room _ op rs rt rd hroom (by rw [phasesOf_aluInstr]; rfl)]
  split at he
  · cases he
  · next hfits =>
    cases he
    rw [if_neg hfits, afterFetch_accept, phasesOf_aluInstr]
    rfl

end Room

/-! ### What the ALU answers (40_sequencer.md R62, R63) -/

theorem aluApply_sub_self (a : Word) : aluApply .sub a a = .ok 0 := by
  have hzero : a.toInt - a.toInt = 0 := Int.sub_self _
  rw [aluApply, hzero, encS_32_of_fits (by decide)]
  rfl

theorem aluApply_or_self (a : Word) : aluApply .or a a = .ok a :=
  congrArg Except.ok BitVec.or_self

theorem aluApply_slt (a b : Word) : aluApply .slt a b = .ok (if a.toInt < b.toInt then 1 else 0) := by
  rw [aluApply_eq, if_pos (aluExact_fits (by decide) (by decide) a b), aluExact]
  split <;> rfl

theorem aluApply_slt_self (a : Word) : aluApply .slt a a = .ok 0 := by
  rw [aluApply_slt, if_neg (Int.lt_irrefl _)]

/-! ### The five instructions (R79 to R83) -/

/-- Settles O24: the ALU's sum is the signed codec's answer, which fails exactly off the 32-bit range. -/
theorem addWritesTheSum : Obligations.AddWritesTheSum := by
  refine ⟨fun rs rt rd s => ⟨?_, ?_, ?_, ?_⟩, by decide, by decide⟩
  · exact (encodeR_and_maskR 0b000000#6 rs rt rd).trans (by decide)
  · exact exec_of_no_room _
  · exact fun hroom hfits => exec_aluInstr_of_error (op := .add) hroom (encS_32_of_not_fits hfits)
  · exact fun hroom hfits => exec_aluInstr_of_ok (op := .add) hroom (encS_32_of_fits hfits)

/-- Settles O25: as for the sum, and `a - a = 0` always fits. -/
theorem subWritesTheDifference : Obligations.SubWritesTheDifference := by
  refine ⟨fun rs rt rd s => ⟨?_, ?_, ?_, ?_, ?_⟩, by decide⟩
  · exact (encodeR_and_maskR 0b100010#6 rs rt rd).trans (by decide)
  · exact exec_of_no_room _
  · exact fun hroom hfits => exec_aluInstr_of_error (op := .sub) hroom (encS_32_of_not_fits hfits)
  · exact fun hroom hfits => exec_aluInstr_of_ok (op := .sub) hroom (encS_32_of_fits hfits)
  · exact fun hroom => exec_aluInstr_of_ok (op := .sub) hroom (aluApply_sub_self _)

/-- Settles O26: the conjunction never fails, so only FETCH can raise. -/
theorem andWritesTheConjunction : Obligations.AndWritesTheConjunction := by
  refine ⟨fun rs rt rd s => ⟨?_, ?_, ?_⟩, by decide⟩
  · exact (encodeR_and_maskR 0b100100#6 rs rt rd).trans (by decide)
  · exact exec_of_no_room _
  · exact fun hroom => exec_aluInstr_of_ok (op := .and) hroom rfl

/-- Settles O27: the disjunction never fails, and of a register with itself is a move. -/
theorem orWritesTheDisjunction : Obligations.OrWritesTheDisjunction := by
  refine ⟨fun rs rt rd s => ⟨?_, ?_, ?_, ?_⟩, by decide⟩
  · exact (encodeR_and_maskR 0b100101#6 rs rt rd).trans (by decide)
  · exact exec_of_no_room _
  · exact fun hroom => exec_aluInstr_of_ok (op := .or) hroom rfl
  · exact fun hroom => exec_aluInstr_of_ok (op := .or) hroom (aluApply_or_self _)

/-- Settles O28: the comparison never fails, and equal operands are not less. -/
theorem sltWritesTheSignedComparison : Obligations.SltWritesTheSignedComparison := by
  refine ⟨fun rs rt rd s => ⟨?_, ?_, ?_, ?_⟩, by decide⟩
  · exact (encodeR_and_maskR 0b101010#6 rs rt rd).trans (by decide)
  · exact exec_of_no_room _
  · exact fun hroom => exec_aluInstr_of_ok (op := .slt) hroom (aluApply_slt _ _)
  · exact fun hroom => exec_aluInstr_of_ok (op := .slt) hroom (aluApply_slt_self _)

end Sys2Proof.Machine
end

section
/-! PROOFS. `addi` (42_alu_immediate.md R84). In the core the one idea is that its sum is the signed codec's answer on
`x[rt]` and the immediate; at the assembler, that a line has one mnemonic, so that the parser whose table holds it is
the factory's choice. -/

namespace Sys2Proof.Machine

/-! ### The word (30_encoding.md R47) -/

/-- The bits the I-type mask keeps of an I-type word: the opcode. -/
theorem encodeI_and_maskI (opcode : BitVec 6) (rs rt : RegIdx) (imm16 : BitVec 16) :
    encodeI opcode rs rt imm16 &&& 0xFC000000#32 = (opcode ++ 0#26 : BitVec 32) :=
  (rowI_iff _ opcode).2 (opcodeOf_encodeI opcode rs rt imm16)

/-! ### The instruction whole -/

section Room
variable {rs rt : RegIdx} {imm16 : BitVec 16} {s : State}

/-- A sum that fits is written back. -/
theorem exec_addi_of_fits (hroom : FetchRoom s) (hfits : Fits32 ((s.x rt).toInt + imm16.toInt)) :
    exec (.addi rs rt imm16) s =
      .next (retiredAlu (.addi rs rt imm16) 0b10 0b000 rs (BitVec.ofInt 32 ((s.x rt).toInt + imm16.toInt)) s) := by
  rw [exec_addi, execAddi_of_room rs rt imm16 hroom, if_pos hfits]
  rfl

/-- A sum that does not fit leaves FETCH done and EXECUTE at the head of the queue. -/
theorem exec_addi_of_not_fits (hroom : FetchRoom s) (hfits : ¬ Fits32 ((s.x rt).toInt + imm16.toInt)) :
    exec (.addi rs rt imm16) s =
      .fault (.raised (.range ((s.x rt).toInt + imm16.toInt) 32)
        (fetched (.addi rs rt imm16) [.execute, .aluWriteback] s)) := by
  rw [exec_addi, execAddi_of_room rs rt imm16 hroom, if_neg hfits, afterFetch_accept]
  rfl

/-- Adding 0 is a register move: the sum is `x[rt]` itself, which fits. -/
theorem exec_addi_zero (hroom : FetchRoom s) :
    exec (.addi rs rt 0) s = .next (retiredAlu (.addi rs rt 0) 0b10 0b000 rs (s.x rt) s) := by
  have hsum : (s.x rt).toInt + (0 : BitVec 16).toInt = (s.x rt).toInt := Int.add_zero _
  have hfits : Fits32 ((s.x rt).toInt + (0 : BitVec 16).toInt) := by
    rw [hsum]
    exact toInt_bounds (s.x rt)
  rw [exec_addi_of_fits hroom hfits, hsum, BitVec.ofInt_toInt]

end Room

/-! ### The assembler on a line whose mnemonic is known (30_encoding.md R53, R54, R59) -/

theorem tableMnemonic_eq_some {p : Parser} {line : Text} {m : Mnemonic} (h : tableMnemonic p line = some m) :
    m ∈ parserTable p ∧ mnemonicName m = (firstWord line).map Char.toLower :=
  ⟨List.mem_of_find?_eq_some h, by simpa using List.find?_some h⟩

/-- No name stands in two parsers' tables. -/
theorem parser_eq_of_mnemonicName_eq (p q : Parser) :
    ∀ m ∈ parserTable p, ∀ n ∈ parserTable q, mnemonicName m = mnemonicName n → p = q := by
  cases p <;> cases q <;> decide

theorem assemble_of_tableMnemonic {p : Parser} {line : Text} {m : Mnemonic} (h : tableMnemonic p line = some m) :
    assemble line = parserParse p line := by
  obtain ⟨q, hq, hparse⟩ | ⟨hnone, -⟩ := assemble_cases line
  · obtain ⟨n, hn⟩ := Option.isSome_iff_exists.1 hq
    obtain ⟨hmem, hname⟩ := tableMnemonic_eq_some h
    obtain ⟨hmem', hname'⟩ := tableMnemonic_eq_some hn
    rw [hparse, parser_eq_of_mnemonicName_eq p q m hmem n hmem' (hname.trans hname'.symm)]
  · have hp := hnone p
    simp [parserMatches, h] at hp

/-- A line with a known mnemonic and well-formed operands is what its operands build. -/
theorem assemble_eq_buildInstr {p : Parser} {line : Text} {m : Mnemonic} {operands : List Operand}
    (h : tableMnemonic p line = some m) (hops : parseOperands line = some operands) :
    assemble line = (buildInstr line m operands).map encode := by
  rw [assemble_of_tableMnemonic h]
  simp only [parserParse, h, hops]

/-- The immediate of addi and beq is the last operand to be checked. -/
theorem twoRegsImm_of_resolved (mk : RegIdx → RegIdx → BitVec 16 → Instr) {a b : Text} {ra rb : RegIdx} (n : Int)
    (ha : resolveToken a = .ok ra) (hb : resolveToken b = .ok rb) :
    twoRegsImm mk a b n = thenDo (encS n 16) fun i => .ok (mk ra rb i) := by
  rw [twoRegsImm, ha, thenDo_ok, hb, thenDo_ok]

/-! ### The statement (R84) -/

/-- Settles O29: the core's sum is the signed codec's answer, and the assembler's immediate the 16-bit codec's. -/
theorem addiAddsTheSignedImmediate : Obligations.AddiAddsTheSignedImmediate := by
  refine ⟨fun rs rt imm16 s => ⟨?_, ?_, ?_, ?_, ?_⟩, by decide, by decide, ?_⟩
  · exact (encodeI_and_maskI 0b001000#6 rs rt imm16).trans (by decide)
  · exact exec_of_no_room _
  · exact exec_addi_of_not_fits
  · exact exec_addi_of_fits
  · exact exec_addi_zero
  · intro line a b ra rb n hm hops ha hb hrange
    have hn : encS n 16 = .error (.range n 16) := by rw [encS_16, if_neg (by omega)]
    rw [assemble_eq_buildInstr hm hops, buildInstr, twoRegsImm_of_resolved _ n ha hb, hn]
    rfl

end Sys2Proof.Machine
end

section
/-! PROOFS. `lw` and `sw` (43_load_store.md R85, R86). Both form the effective address as `addi` forms its sum, and can
fail there only; the last phase then moves one Word between register `rs` and the cell at that address. -/

namespace Sys2Proof.Machine

/-! ### The instructions whole -/

section Room
variable {rs rt : RegIdx} {imm16 : BitVec 16} {s : State} {a : Word}

/-- An address that does not fit leaves FETCH done and EXECUTE at the head of the queue. -/
theorem exec_lw_of_not_fits (hroom : FetchRoom s) (hfits : ¬ Fits32 ((s.x rt).toInt + imm16.toInt)) :
    exec (.lw rs rt imm16) s =
      .fault (.raised (.range ((s.x rt).toInt + imm16.toInt) 32)
        (fetched (.lw rs rt imm16) [.execute, .memRead] s)) := by
  rw [exec_lw, execLw_of_room rs rt imm16 hroom, if_neg hfits, afterFetch_accept]
  rfl

/-- As for `lw`: the address is formed before memory is touched. -/
theorem exec_sw_of_not_fits (hroom : FetchRoom s) (hfits : ¬ Fits32 ((s.x rt).toInt + imm16.toInt)) :
    exec (.sw rs rt imm16) s =
      .fault (.raised (.range ((s.x rt).toInt + imm16.toInt) 32)
        (fetched (.sw rs rt imm16) [.execute, .memWrite] s)) := by
  rw [exec_sw, execSw_of_room rs rt imm16 hroom, if_neg hfits, afterFetch_accept]
  rfl

/-- At an address that fits, the cell's Word is written to `rs`. -/
theorem exec_lw_of_fits (hroom : FetchRoom s) (hfits : Fits32 ((s.x rt).toInt + imm16.toInt))
    (ha : a = BitVec.ofInt 32 ((s.x rt).toInt + imm16.toInt)) :
    exec (.lw rs rt imm16) s =
      .next { s.setX rs (s.mem.get a) with
        aluResult := some a, pc := s.pc + 4, queue := [], cur := some (encode (.lw rs rt imm16)),
        ctrl := memReadCtrl } := by
  rw [exec_lw, execLw_of_room rs rt imm16 hroom, if_pos hfits, ← ha]
  rfl

/-- At an address that fits, the Word of `rs` is written to the cell. -/
theorem exec_sw_of_fits (hroom : FetchRoom s) (hfits : Fits32 ((s.x rt).toInt + imm16.toInt))
    (ha : a = BitVec.ofInt 32 ((s.x rt).toInt + imm16.toInt)) :
    exec (.sw rs rt imm16) s =
      .next { s with
        mem := s.mem.set a (s.x rs), aluResult := some a, pc := s.pc + 4, queue := [],
        cur := some (encode (.sw rs rt imm16)), ctrl := memWriteCtrl } := by
  rw [exec_sw, execSw_of_room rs rt imm16 hroom, if_pos hfits, ← ha]

end Room

/-- The enumeration lists an address after a write to it. -/
theorem mem_addresses_set_self (m : Memory) (a v : Word) : a ∈ (m.set a v).addresses := by
  rw [addresses_set]
  split
  · assumption
  · exact List.mem_append_right _ (List.mem_singleton_self a)

/-! ### The statements (R85, R86) -/

/-- Settles O30: the two errors and the load above, and an address with no entry reads zero by `get_unlisted`. -/
theorem lwLoadsTheWordAtTheAddress : Obligations.LwLoadsTheWordAtTheAddress := by
  refine ⟨fun rs rt imm16 s a => ⟨?_, ?_, ?_, ?_⟩, get_unlisted, by decide⟩
  · exact (encodeI_and_maskI 0b100011#6 rs rt imm16).trans (by decide)
  · exact exec_of_no_room _
  · exact exec_lw_of_not_fits
  · exact exec_lw_of_fits

/-- Settles O31: the two errors and the store above, and the enumeration by `addresses_set`. -/
theorem swStoresTheWordAtTheAddress : Obligations.SwStoresTheWordAtTheAddress := by
  refine ⟨fun rs rt imm16 s a => ⟨?_, ?_, ?_, ?_⟩,
    fun m a v => ⟨mem_addresses_set_self m a v, fun hlisted => ?_, fun hunlisted => ?_⟩, by decide⟩
  · exact (encodeI_and_maskI 0b101011#6 rs rt imm16).trans (by decide)
  · exact exec_of_no_room _
  · exact exec_sw_of_not_fits
  · exact exec_sw_of_fits
  · rw [addresses_set, if_pos hlisted]
  · rw [addresses_set, if_neg hunlisted]

end Sys2Proof.Machine
end

section
/-! PROOFS. `beq` and `j` (44_control_transfer.md R87, R88). Both take their target from the pc FETCH left, which under
`FetchRoom` is the exact `pc + 4`; `beq` can then leave the pc's range, while `j` puts its target together from bits. -/

namespace Sys2Proof.Machine

/-! ### The advanced pc and the targets (40_sequencer.md R67, R72, R73) -/

/-- With room the advance does not wrap. -/
theorem toNat_pc_add_four_of_room {s : State} (hroom : FetchRoom s) : (s.pc + 4).toNat = s.pc.toNat + 4 :=
  BitVec.toNat_add_of_lt hroom

theorem branchTarget_of_room {s : State} (hroom : FetchRoom s) (imm16 : BitVec 16) :
    branchTarget (s.pc + 4) imm16 = ((s.pc.toNat : Int) + 4) + 4 * imm16.toInt := by
  rw [branchTarget, toNat_pc_add_four_of_room hroom, Nat.cast_add, Nat.cast_ofNat]

/-- Appended words are digits: the high one weighs `2^n`. -/
theorem toNat_append_eq_add {m n : Nat} (a : BitVec m) (b : BitVec n) :
    (a ++ b).toNat = a.toNat * 2 ^ n + b.toNat := by
  rw [BitVec.toNat_append, ← Nat.shiftLeft_add_eq_or_of_lt b.isLt, Nat.shiftLeft_eq]

/-- The region of the pc, the field, and two zeros, as a number. -/
theorem toNat_jumpTarget (pc : Word) (addr26 : BitVec 26) :
    (jumpTarget pc addr26).toNat = pc.toNat / 2 ^ 28 * 2 ^ 28 + 4 * addr26.toNat := by
  have hregion : (pc.extractLsb' 28 4).toNat = pc.toNat / 2 ^ 28 := by
    rw [BitVec.extractLsb'_toNat, Nat.shiftRight_eq_div_pow]
    omega
  calc (jumpTarget pc addr26).toNat
      = ((pc.extractLsb' 28 4).toNat * 2 ^ 26 + addr26.toNat) * 2 ^ 2 + (0b00#2).toNat := by
        rw [jumpTarget, toNat_append_eq_add, toNat_append_eq_add]
    _ = pc.toNat / 2 ^ 28 * 2 ^ 28 + 4 * addr26.toNat := by
        rw [hregion, BitVec.toNat_ofNat]
        omega

/-! ### The instructions whole -/

section Room
variable {rs rt : RegIdx} {imm16 : BitVec 16} {s : State}

/-- A taken branch out of the pc's range leaves FETCH done and BRANCH at the head of the queue. -/
theorem exec_beq_of_not_fits (hroom : FetchRoom s) (heq : s.x rs = s.x rt)
    (hfits : ¬ TargetFits (s.pc + 4) imm16) :
    exec (.beq rs rt imm16) s =
      .fault (.raised (.range (branchTarget (s.pc + 4) imm16) 32) (fetched (.beq rs rt imm16) [.branch] s)) := by
  rw [exec_beq, execBeq_of_room rs rt imm16 hroom, if_pos heq, if_neg hfits, afterFetch_accept]
  rfl

/-- A taken branch in the pc's range goes to its target. -/
theorem exec_beq_of_fits (hroom : FetchRoom s) (heq : s.x rs = s.x rt) (hfits : TargetFits (s.pc + 4) imm16) :
    exec (.beq rs rt imm16) s =
      .next { s with
        pc := BitVec.ofInt 32 (branchTarget (s.pc + 4) imm16), queue := [],
        cur := some (encode (.beq rs rt imm16)), ctrl := branchCtrl } := by
  rw [exec_beq, execBeq_of_room rs rt imm16 hroom, if_pos heq, if_pos hfits]

/-- A branch not taken forms no target, so it cannot fail. -/
theorem exec_beq_of_ne (hroom : FetchRoom s) (hne : s.x rs ≠ s.x rt) :
    exec (.beq rs rt imm16) s =
      .next { s with
        pc := s.pc + 4, queue := [], cur := some (encode (.beq rs rt imm16)), ctrl := branchCtrl } := by
  rw [exec_beq, execBeq_of_room rs rt imm16 hroom, if_neg hne]

end Room

/-! ### The words (30_encoding.md R47) -/

/-- The bits the mask keeps of a J-type word: the opcode. -/
theorem encodeJ_and_maskI (opcode : BitVec 6) (addr26 : BitVec 26) :
    encodeJ opcode addr26 &&& 0xFC000000#32 = (opcode ++ 0#26 : BitVec 32) :=
  (rowI_iff _ opcode).2 (opcodeOf_encodeJ opcode addr26)

/-! ### The statements (R87, R88) -/

/-- Settles O32: with room the branch's target is the exact integer `n`, and BRANCH raises exactly when the registers
are equal and `n` is no Word. -/
theorem beqBranchesOnEquality : Obligations.BeqBranchesOnEquality := by
  refine ⟨fun rs rt imm16 s n hn => ⟨?_, ?_, ?_, ?_, ?_⟩, by decide⟩
  · exact (encodeI_and_maskI 0b000100#6 rs rt imm16).trans (by decide)
  · exact exec_of_no_room _
  · intro hroom heq hout
    obtain rfl := hn.trans (branchTarget_of_room hroom imm16).symm
    have hfits : ¬ TargetFits (s.pc + 4) imm16 := by
      rw [TargetFits]
      omega
    exact exec_beq_of_not_fits hroom heq hfits
  · intro hroom heq hlo hhi
    obtain rfl := hn.trans (branchTarget_of_room hroom imm16).symm
    exact exec_beq_of_fits hroom heq ⟨hlo, Int.lt_add_one_of_le hhi⟩
  · exact exec_beq_of_ne

/-- Settles O33: the target is the bits `jumpTarget` puts together, and JUMP itself cannot raise. -/
theorem jumpGoesToItsTarget : Obligations.JumpGoesToItsTarget := by
  refine ⟨fun addr26 s => ⟨?_, ?_, fun hroom => ⟨jumpTarget (s.pc + 4) addr26, ?_, ?_⟩⟩, by decide⟩
  · exact (encodeJ_and_maskI 0b000010#6 addr26).trans (by decide)
  · exact exec_of_no_room _
  · exact (exec_j addr26 s).trans (execJ_of_room addr26 hroom)
  · rw [toNat_jumpTarget, toNat_pc_add_four_of_room hroom]
    omega

end Sys2Proof.Machine
end

section
/-! PROOFS. Cycle counts (70_reset_and_hazards.md R110, R113). Every completed clock takes one phase off the queue, so
an instruction takes as many clocks as its sequence is long; that its meaning `exec` is those very clocks is its phases
run in turn on its word. -/

namespace Sys2Proof.Machine

/-! ### What a clock does to the queue and the current word (40_sequencer.md R66, R76) -/

/-- A completed phase takes the head off the queue and leaves the current word. -/
theorem runPhase_queue_cur {p : PhaseKind} {s t : State} (h : runPhase p s = .next t) :
    t.queue = s.queue.tail ∧ t.cur = s.cur := by
  obtain ⟨l, -, hfetch | hexecute | hwriteback | hread | hwrite | hbranch | hjump⟩ := runPhase_cases h
  · obtain ⟨-, -, rfl⟩ := hfetch
    exact ⟨rfl, rfl⟩
  · obtain ⟨-, w, v, -, -, rfl⟩ := hexecute
    exact ⟨rfl, rfl⟩
  · obtain ⟨-, w, v, -, -, rfl⟩ := hwriteback
    exact ⟨rfl, setX_cur s _ v⟩
  · obtain ⟨-, w, a, -, -, rfl⟩ := hread
    exact ⟨rfl, setX_cur s _ _⟩
  · obtain ⟨-, w, a, -, -, rfl⟩ := hwrite
    exact ⟨rfl, rfl⟩
  · obtain ⟨-, w, -, -, rfl⟩ := hbranch
    exact ⟨rfl, rfl⟩
  · obtain ⟨-, w, -, rfl⟩ := hjump
    exact ⟨rfl, rfl⟩

/-- An empty queue has an empty tail, so the idle clock is no exception. -/
theorem nextClock_queue {s t : State} (h : nextClock s = .next t) : t.queue = s.queue.tail := by
  cases hq : s.queue with
  | nil =>
    rw [nextClock_nil hq] at h
    cases h
    exact hq
  | cons p rest =>
    rw [nextClock_cons hq] at h
    rw [(runPhase_queue_cur h).1, hq]

theorem clocks_succ (k : Nat) (s : State) : clocks (k + 1) s = andThen (nextClock s) (clocks k) := rfl

theorem clocks_queue {k : Nat} {s t : State} (h : clocks k s = .next t) : t.queue = s.queue.drop k := by
  induction k generalizing s with
  | zero =>
    cases h
    rfl
  | succ k ih =>
    obtain ⟨r, hr, ht⟩ := andThen_eq_next h
    rw [ih ht, nextClock_queue hr, List.drop_tail]

theorem clocks_add (k m : Nat) (s : State) : clocks (k + m) s = andThen (clocks k s) (clocks m) := by
  induction k generalizing s with
  | zero => rw [Nat.zero_add, clocks, andThen_next]
  | succ k ih => rw [Nat.succ_add, clocks_succ, clocks_succ, andThen_assoc, funext ih]

/-- A run of clocks that completes completed each of its earlier ones. -/
theorem clocks_completes_of_le {k n : Nat} {s u : State} (hk : k ≤ n) (h : clocks n s = .next u) :
    ∃ v, clocks k s = .next v := by
  rw [← Nat.add_sub_of_le hk, clocks_add] at h
  obtain ⟨v, hv, -⟩ := andThen_eq_next h
  exact ⟨v, hv⟩

/-! ### An instruction's meaning as its phases in turn (70_reset_and_hazards.md R110) -/

/-- The phase of kind `p`, its fields and lines read from the word `w`. -/
def phaseOn (w : Word) (p : PhaseKind) (s : State) : Result :=
  match p with
  | .fetch => fetchPhase s
  | .execute => executePhase (wordAluLines w) (operandA w s) (operandB (wordAluLines w) w s) s
  | .aluWriteback => aluWritebackPhase (wordAluLines w) (rsOf w) s
  | .memRead => memReadPhase (rsOf w) s
  | .memWrite => memWritePhase (rsOf w) s
  | .branch => branchPhase (rsOf w) (rtOf w) (imm16Of w) s
  | .jump => jumpPhase (addr26Of w) s

theorem runPhase_of_cur {w : Word} {s : State} (hcur : s.cur = some w) (p : PhaseKind) :
    runPhase p s = phaseOn w p s := by
  cases p with
  | fetch => rfl
  | execute => exact withCur_some hcur _
  | aluWriteback => exact withCur_some hcur _
  | memRead => exact withCur_some hcur _
  | memWrite => exact withCur_some hcur _
  | branch => exact withCur_some hcur _
  | jump => exact withCur_some hcur _

/-- The phases of a sequence on the word `w`, one after another. -/
def phasesOn (w : Word) : List PhaseKind → State → Result
  | [], s => .next s
  | p :: rest, s => andThen (phaseOn w p s) (phasesOn w rest)

/-- Clocking a queue to its end runs its phases on the current word, which no phase changes. -/
theorem retire_of_cur {w : Word} {s : State} (hcur : s.cur = some w) : retire s = phasesOn w s.queue s := by
  rw [retire]
  generalize hq : s.queue = q
  induction q generalizing s with
  | nil => rfl
  | cons p rest ih =>
    rw [List.length_cons, clocks_succ, nextClock_cons hq, phasesOn, ← runPhase_of_cur hcur]
    cases hp : runPhase p s with
    | next t =>
      obtain ⟨hqueue, hcur'⟩ := runPhase_queue_cur hp
      exact ih (hcur'.trans hcur) (by rw [hqueue, hq, List.tail_cons])
    | fault e => rfl
    | refused e => rfl

@[simp] theorem wordAluLines_encode (i : Instr) : wordAluLines (encode i) = aluLinesOf i := by
  rw [wordAluLines, decode_encode]

@[simp] theorem andThen_next_right (r : Result) : andThen r .next = r := by
  cases r <;> rfl

section Shapes
variable {i : Instr} {op : AluOp} {f : BitVec 6} {rs rt rd : RegIdx} {imm16 : BitVec 16}

/-- The register-register shape, on the R-type word of its instruction. -/
theorem aluRegister_eq_phasesOn (hword : encode i = encodeR f rs rt rd)
    (hlines : aluLinesOf i = some ⟨.register, op⟩) (s : State) :
    aluRegister i op rs rt rd s = phasesOn (encode i) [.fetch, .execute, .aluWriteback] (accept i s) := by
  rw [← wordAluLines_encode, hword] at hlines
  simp [aluRegister, phasesOn, phaseOn, operandA, operandB, hword, hlines]

/-- The shape of `addi`, `lw` and `sw`, which differ in the last phase `p`, on the I-type word of its instruction. -/
theorem phasesOn_immediate (hword : encode i = encodeI f rs rt imm16)
    (hlines : aluLinesOf i = some ⟨.immediate, op⟩) (p : PhaseKind) (s : State) :
    phasesOn (encode i) [.fetch, .execute, p] s =
      andThen (fetchPhase s) fun s₁ =>
      andThen (executePhase (some ⟨.immediate, op⟩) (s₁.x rt) (simm imm16) s₁) fun s₂ =>
      phaseOn (encode i) p s₂ := by
  have hexecute (s₁ : State) : phaseOn (encode i) .execute s₁ =
      executePhase (some ⟨.immediate, op⟩) (s₁.x rt) (simm imm16) s₁ := by
    rw [← wordAluLines_encode, hword] at hlines
    simp [phaseOn, operandA, operandB, hword, hlines]
  simp only [phasesOn, hexecute, andThen_next_right]
  rfl

end Shapes

/-- Each instruction's meaning is its sequence (R74) on its own word, whose fields are the constructor's operands. -/
theorem exec_eq_phasesOn (i : Instr) (s : State) : exec i s = phasesOn (encode i) (phasesOf i) (accept i s) := by
  cases i with
  | add rs rt rd => rw [exec_add, phasesOf, aluRegister_eq_phasesOn rfl rfl]
  | sub rs rt rd => rw [exec_sub, phasesOf, aluRegister_eq_phasesOn rfl rfl]
  | and rs rt rd => rw [exec_and, phasesOf, aluRegister_eq_phasesOn rfl rfl]
  | or rs rt rd => rw [exec_or, phasesOf, aluRegister_eq_phasesOn rfl rfl]
  | slt rs rt rd => rw [exec_slt, phasesOf, aluRegister_eq_phasesOn rfl rfl]
  | addi rs rt imm16 =>
    rw [exec_addi, execAddi, phasesOf, phasesOn_immediate rfl rfl]
    simp only [phaseOn, wordAluLines_encode, aluLinesOf]
    rw [encode, rsOf_encodeI]
  | lw rs rt imm16 =>
    rw [exec_lw, execLw, addressPhases, andThen_assoc, phasesOf, phasesOn_immediate rfl rfl]
    simp only [phaseOn, encode, rsOf_encodeI]
  | sw rs rt imm16 =>
    rw [exec_sw, execSw, addressPhases, andThen_assoc, phasesOf, phasesOn_immediate rfl rfl]
    simp only [phaseOn, encode, rsOf_encodeI]
  | beq rs rt imm16 =>
    rw [exec_beq, execBeq]
    simp only [phasesOf, phasesOn, phaseOn, andThen_next_right, encode, rsOf_encodeI, rtOf_encodeI, imm16Of_encodeI]
  | j addr26 =>
    rw [exec_j, execJ]
    simp only [phasesOf, phasesOn, phaseOn, andThen_next_right, encode, addr26Of_encodeJ]

/-- One step of the model is the submission and the clocks of R110. -/
theorem exec_eq_retire_accept (i : Instr) (s : State) : exec i s = retire (accept i s) :=
  (exec_eq_phasesOn i s).trans (retire_of_cur (accept_cur i s)).symm

theorem simulate_encode (i : Instr) (s : State) : simulate (encode i) s = .next (accept i s) := by
  rw [simulate, decode_encode]
  rfl

/-! ### The statement (R113) -/

theorem length_phasesOf (i : Instr) :
    (phasesOf i).length = if i.mnemonic = .beq ∨ i.mnemonic = .j then 2 else 3 := by
  cases i <;> rfl

/-- Settles O17: the count is the length of the sequence submitted, and `k` clocks drop the first `k` phases of it. -/
theorem cycleCounts : Obligations.CycleCounts := by
  intro i s t u n hn hsim hexec
  obtain rfl : accept i s = t := by simpa [simulate_encode] using hsim
  have hlen : n = (accept i s).queue.length := by rw [hn, accept_queue, length_phasesOf]
  have hclocks : clocks n (accept i s) = .next u := by rw [hlen, ← hexec, exec_eq_retire_accept, retire]
  refine ⟨hclocks, ?_, fun k hk => ?_⟩
  · rw [clocks_queue hclocks, hlen, List.drop_length]
  · obtain ⟨v, hv⟩ := clocks_completes_of_le hk.le hclocks
    exact ⟨v, hv, by rw [clocks_queue hv, List.length_drop, hlen]⟩

end Sys2Proof.Machine
end

section
/-! PROOFS. The decoder against the encoder and the opcode table, and the unsigned codec (30_encoding.md R38, R39, R48
to R50). The decoder asks for an opcode, and in the R format for a shamt and a funct; a word is those fields put
together, and a row of the table fixes the very same ones. -/

namespace Sys2Proof

/-! ### Decoding the word of an instruction, and the word of a decoded instruction (R48, R58) -/

/-- Settles O3: each constructor's opcode and funct select its own arm of the decoder. -/
theorem decodeOfEncode : Obligations.DecodeOfEncode := decode_encode

theorem encode_of_decodeFunct {w : Word} {i : Instr} (ho : opcodeOf w = 0b000000#6) (hs : shamtOf w = 0b00000#5)
    (h : decodeFunct w = .ok i) : encode i = w := by
  unfold decodeFunct at h
  split_ifs at h with hadd hsub hand hor hslt
  · cases h; rw [encode, ← hadd, encodeR_of_fields w ho hs]
  · cases h; rw [encode, ← hsub, encodeR_of_fields w ho hs]
  · cases h; rw [encode, ← hand, encodeR_of_fields w ho hs]
  · cases h; rw [encode, ← hor, encodeR_of_fields w ho hs]
  · cases h; rw [encode, ← hslt, encodeR_of_fields w ho hs]

theorem encode_of_decode {w : Word} {i : Instr} (h : decode w = .ok i) : encode i = w := by
  unfold decode at h
  split_ifs at h with hR hshamt haddi hlw hsw hbeq hj
  · exact encode_of_decodeFunct hR hshamt h
  · cases h; rw [encode, ← haddi, encodeI_of_fields]
  · cases h; rw [encode, ← hlw, encodeI_of_fields]
  · cases h; rw [encode, ← hsw, encodeI_of_fields]
  · cases h; rw [encode, ← hbeq, encodeI_of_fields]
  · cases h; rw [encode, ← hj, encodeJ_of_fields]

/-- Settles O4: the arm of the decoder that answered fixes the fields the encoder writes. -/
theorem encodeOfDecode : Obligations.EncodeOfDecode := fun _ _ => encode_of_decode

/-! ### Illegal words (R49, R50) -/

theorem decodeFunct_eq_error_iff (w : Word) :
    (∃ e, decodeFunct w = .error e) ↔
      ¬ (functOf w = 0b000000 ∨ functOf w = 0b100010 ∨ functOf w = 0b100100 ∨ functOf w = 0b100101 ∨
        functOf w = 0b101010) := by
  unfold decodeFunct
  split_ifs with hadd hsub hand hor hslt
  · simp [hadd]
  · simp [hsub]
  · simp [hand]
  · simp [hor]
  · simp [hslt]
  · simp [hadd, hsub, hand, hor, hslt]

theorem decode_eq_error_iff (w : Word) :
    (∃ e, decode w = .error e) ↔
      ¬ (opcodeOf w = 0 ∧ shamtOf w = 0 ∧
          (functOf w = 0b000000 ∨ functOf w = 0b100010 ∨ functOf w = 0b100100 ∨ functOf w = 0b100101 ∨
            functOf w = 0b101010)) ∧
      ¬ (opcodeOf w = 0b001000 ∨ opcodeOf w = 0b100011 ∨ opcodeOf w = 0b101011 ∨ opcodeOf w = 0b000100 ∨
          opcodeOf w = 0b000010) := by
  unfold decode
  split_ifs with hR hshamt haddi hlw hsw hbeq hj
  · rw [decodeFunct_eq_error_iff]
    simp [hR, hshamt]
  · simp [hR, hshamt]
  · simp [haddi]
  · simp [hlw]
  · simp [hsw]
  · simp [hbeq]
  · simp [hj]
  · simp [hR, haddi, hlw, hsw, hbeq, hj]

/-- Settles O5: the decoder's answer and the rows of the table turn on the same fields. -/
theorem illegalIffNoRowMatches : Obligations.IllegalIffNoRowMatches := by
  refine ⟨fun w => (decode_eq_error_iff w).trans (no_row_matches_iff w).symm, fun w hop hshamt => ?_⟩
  have ho : opcodeOf w = 0b000000#6 := hop
  have hs : shamtOf w ≠ 0b00000#5 := hshamt
  exact ⟨.nonzeroShamt (shamtOf w), by rw [decode, if_pos ho, if_neg hs]⟩

/-- The decoder rejects a word no row matches. -/
theorem decode_eq_error_of_not_legal {w : Word} (h : legalWord w = false) : ∃ e, decode w = .error e := by
  refine (illegalIffNoRowMatches.1 w).2 fun r hr hmatch => ?_
  have hany := List.any_eq_false.1 h r hr
  simp [OpcodeRow.matchesWord, hmatch] at hany

/-- Settles O6: closed words, each decoded by evaluation. -/
theorem writtenOutWordsDecode : Obligations.WrittenOutWordsDecode := by
  unfold Obligations.WrittenOutWordsDecode
  decide

end Sys2Proof

namespace Sys2Proof.Machine

/-! ### The unsigned codec (R38, R39) -/

theorem encU_of_mem_range {n : Int} {w : Nat} (hlo : 0 ≤ n) (hhi : n ≤ 2 ^ w - 1) :
    encU n w = .ok (BitVec.ofInt w n) := by
  rw [encU, if_pos]
  push_cast
  exact ⟨hlo, hhi⟩

theorem encU_of_not_mem_range {n : Int} {w : Nat} (h : n < 0 ∨ 2 ^ w - 1 < n) : encU n w = .error (.range n w) := by
  rw [encU, if_neg]
  push_cast
  omega

/-- In range the word the encoder answers holds the integer itself. -/
theorem natCast_toNat_ofInt_of_mem_range {n : Int} {w : Nat} (hlo : 0 ≤ n) (hhi : n ≤ 2 ^ w - 1) :
    ((BitVec.ofInt w n).toNat : Int) = n := by
  rw [natCast_toNat_ofInt, Int.emod_eq_of_lt hlo (Int.lt_of_le_sub_one hhi)]

theorem encU_decU {w : Nat} (v : BitVec w) : encU (decU v) w = .ok v := by
  have hlt : (v.toNat : Int) < 2 ^ w := by exact_mod_cast v.isLt
  rw [decU, encU_of_mem_range (Int.natCast_nonneg _) (Int.le_sub_one_of_lt hlt), BitVec.ofInt_natCast,
    BitVec.ofNat_toNat, BitVec.setWidth_eq]

/-- Settles O2: the encoder on and off its range, and the two inverses. -/
theorem unsignedCodecRoundTrip : Obligations.UnsignedCodecRoundTrip := fun w =>
  ⟨fun n hlo hhi =>
    have hn : ((BitVec.ofInt w n).toNat : Int) = n := natCast_toNat_ofInt_of_mem_range hlo hhi
    ⟨BitVec.ofInt w n, encU_of_mem_range hlo hhi, hn, hn⟩,
    fun _ => encU_of_not_mem_range, fun v => ⟨rfl, encU_decU v⟩⟩

end Sys2Proof.Machine
end

section
/-! PROOFS. Calls, clocks and steps (40_sequencer.md R75, R76; 70_reset_and_hazards.md R109, R110). Everything a step
does is boundary calls: the scheduled one, or the runner's `simulate` and clocks. So what every boundary call keeps,
every step keeps, and a step that faults faults in one call. -/

namespace Sys2Proof.Machine

/-! ### Clocks and runs of them (R76) -/

/-- A fault of a run of clocks is that of one clock, after the earlier ones completed. -/
theorem clocks_eq_fault {k : Nat} {s : State} {f : Fault} (h : clocks k s = .fault f) :
    ∃ j r, clocks j s = .next r ∧ nextClock r = .fault f := by
  induction k generalizing s with
  | zero => cases h
  | succ k ih =>
    rw [clocks_succ] at h
    rcases andThen_eq_fault h with hfirst | ⟨t, ht, hlater⟩
    · exact ⟨0, s, rfl, hfirst⟩
    · obtain ⟨j, r, hr, hf⟩ := ih hlater
      exact ⟨j + 1, r, by rw [clocks_succ, ht, andThen_next, hr], hf⟩

/-- What one clock keeps, a run of clocks keeps. -/
theorem clocks_keeps {P : State → Prop} (hclock : ∀ s t, P s → nextClock s = .next t → P t) {k : Nat} {s t : State}
    (hs : P s) (h : clocks k s = .next t) : P t := by
  induction k generalizing s with
  | zero =>
    cases h
    exact hs
  | succ k ih =>
    obtain ⟨r, hr, ht⟩ := andThen_eq_next h
    exact ih (hclock s r hs hr) ht

theorem phaseFrame_eq_raised {c : Ctrl} {u : Except BoundaryError State} {s k : State} {e : BoundaryError}
    (h : phaseFrame c u s = .fault (.raised e k)) : u = .error e ∧ k = s := by
  cases u with
  | ok t => cases h
  | error e' => cases h; exact ⟨rfl, rfl⟩

/-- The stop on a `cur` that holds ⊥ is not an error raised. -/
theorem withCur_eq_raised {s k : State} {f : Word → Result} {e : BoundaryError}
    (h : withCur s f = .fault (.raised e k)) : ∃ w, s.cur = some w ∧ f w = .fault (.raised e k) := by
  rcases Option.eq_none_or_eq_some s.cur with hc | ⟨w, hc⟩
  · rw [withCur_none hc] at h
    cases h
  · exact ⟨w, hc, withCur_some hc f ▸ h⟩

/-- The phases that read `aluResult` make updates that cannot fail. -/
theorem withAluResult_ne_raised {s k : State} {c : Ctrl} {g : Word → State} {e : BoundaryError} :
    withAluResult s (fun v => phaseFrame c (.ok (g v)) s) ≠ .fault (.raised e k) := by
  rcases Option.eq_none_or_eq_some s.aluResult with ha | ⟨v, ha⟩
  · simp [withAluResult_none ha, stopUndefined]
  · simp [withAluResult_some ha]

/-- Everything a phase that raises can do: it keeps the state, and it is FETCH without room, EXECUTE with the ALU's
error, or a taken BRANCH off the pc's range (60_exceptions.md R91). -/
theorem runPhase_eq_raised {p : PhaseKind} {s k : State} {e : BoundaryError} (h : runPhase p s = .fault (.raised e k)) :
    k = s ∧
      ((p = .fetch ∧ e = .range ((s.pc.toNat : Int) + 4) 32) ∨
       (p = .execute ∧ ∃ w, s.cur = some w ∧
          aluCompute ((wordAluLines w).map (·.op.code)) (operandA w s) (operandB (wordAluLines w) w s) = .error e) ∨
       (p = .branch ∧ ∃ w, s.cur = some w ∧ s.x (rsOf w) = s.x (rtOf w) ∧
          e = .range (branchTarget s.pc (imm16Of w)) 32)) := by
  cases p with
  | fetch =>
    rw [runPhase, fetchPhase_eq] at h
    split at h
    · cases h
    · cases h
      exact ⟨rfl, .inl ⟨rfl, rfl⟩⟩
  | execute =>
    obtain ⟨w, hcur, hw⟩ := withCur_eq_raised h
    obtain ⟨hu, hk⟩ := phaseFrame_eq_raised hw
    refine ⟨hk, .inr (.inl ⟨rfl, w, hcur, ?_⟩)⟩
    cases ha : aluCompute ((wordAluLines w).map (·.op.code)) (operandA w s) (operandB (wordAluLines w) w s) with
    | ok v => simp [ha] at hu
    | error e' => simpa [ha] using hu
  | aluWriteback =>
    obtain ⟨w, -, hw⟩ := withCur_eq_raised h
    exact absurd hw withAluResult_ne_raised
  | memRead =>
    obtain ⟨w, -, hw⟩ := withCur_eq_raised h
    exact absurd hw withAluResult_ne_raised
  | memWrite =>
    obtain ⟨w, -, hw⟩ := withCur_eq_raised h
    exact absurd hw withAluResult_ne_raised
  | branch =>
    obtain ⟨w, hcur, hw⟩ := withCur_eq_raised h
    rw [branchPhase_eq] at hw
    split_ifs at hw with heq hfits
    · cases hw
      exact ⟨rfl, .inr (.inr ⟨rfl, w, hcur, heq, rfl⟩)⟩
  | jump =>
    obtain ⟨w, -, hw⟩ := withCur_eq_raised h
    cases hw

/-- A clock that raises executes a phase that raises. -/
theorem nextClock_eq_raised {s k : State} {e : BoundaryError} (h : nextClock s = .fault (.raised e k)) :
    ∃ p rest, s.queue = p :: rest ∧ runPhase p s = .fault (.raised e k) := by
  cases hq : s.queue with
  | nil =>
    rw [nextClock_nil hq] at h
    cases h
  | cons p rest => exact ⟨p, rest, rfl, nextClock_cons hq ▸ h⟩

theorem nextClock_raised_keeps {s k : State} {e : BoundaryError} (h : nextClock s = .fault (.raised e k)) : k = s := by
  obtain ⟨p, rest, -, hp⟩ := nextClock_eq_raised h
  exact (runPhase_eq_raised hp).1

/-- Settles O16: the head phase is what a clock runs, and an error keeps the state, so the next clock meets it again. -/
theorem nextClockConsumesOnePhase : Obligations.NextClockConsumesOnePhase := by
  refine ⟨fun s => nextClock_nil, fun s p rest hq => ⟨nextClock_cons hq, fun t h => ?_⟩, fun s k e h => ?_⟩
  · rw [nextClock_queue h, hq, List.tail_cons]
  · obtain rfl := nextClock_raised_keeps h
    exact ⟨rfl, h⟩

/-! ### `simulate` (R75) -/

/-- Settles O15: the sequence of R74 is the mnemonic's, and a word no row matches does not decode. -/
theorem simulateLoadsOrChangesNothing : Obligations.SimulateLoadsOrChangesNothing := by
  refine ⟨fun s i => ?_, fun s w hlegal => ?_⟩
  · have hsubmitted : simulate (encode i) s = .next (submitted i (phasesOf i) s) := simulate_encode i s
    rw [hsubmitted]
    cases i <;> simp [Instr.mnemonic, phasesOf]
  · obtain ⟨e, he⟩ := decode_eq_error_of_not_legal hlegal
    rw [simulate, he]
    rfl

/-! ### The runner's turn is calls (R110) -/

theorem runWord_eq_calls (w : Word) (s : State) : runWord w s = andThen (simulate w s) retire := by
  cases h : decode w with
  | error e => simp only [runWord, simulate, h, raise, andThen_fault]
  | ok i =>
    obtain rfl := encode_of_decode h
    simp only [runWord, h, simulate_encode, andThen_next, exec_eq_retire_accept]

/-- Settles O18: an instruction's word is accepted, and its phases are what the clocks run. -/
theorem execIsSimulateAndClocks : Obligations.ExecIsSimulateAndClocks :=
  ⟨fun i s => by rw [simulate_encode, andThen_next, exec_eq_retire_accept], runWord_eq_calls⟩

/-! ### What a step is (00_scope.md R2) -/

theorem step_of_call {s : State} {c : HostCall} {rest : List HostCall} (h : s.calls = c :: rest) :
    step s = performCall c { s with calls := rest } := by
  rw [step, h]

theorem step_of_idle {s : State} (hc : s.calls = []) (hw : fetchWord s = none) : step s = .next s := by
  simp only [step, hc, runnerTurn, hw]

theorem step_of_word {s : State} {w : Word} (hc : s.calls = []) (hw : fetchWord s = some w) : step s = runWord w s := by
  simp only [step, hc, runnerTurn, hw]

/-- Settles O40: the two arms of the step, and after reset nothing is scheduled and the image is empty. -/
theorem stepPerformsCallsOrIdles : Obligations.StepPerformsCallsOrIdles :=
  ⟨fun _ _ _ => step_of_call, fun _ => step_of_idle, fun _ => step_of_idle rfl rfl⟩

/-- Settles O38: the runner's turn on the word at `pc`. -/
theorem stepRunsTheDecodedInstruction : Obligations.StepRunsTheDecodedInstruction := by
  intro s w hc hw
  refine ⟨fun i hi => ?_, fun e he => ?_⟩
  · rw [step_of_word hc hw, runWord, hi]
  · rw [step_of_word hc hw, runWord, he]
    rfl

section PlaceWord
variable (w : Word) (s : State)

@[simp] theorem placeWord_calls : (placeWord w s).calls = [] := by unfold placeWord; split <;> rfl
@[simp] theorem placeWord_pc : (placeWord w s).pc = s.pc := by unfold placeWord; split <;> rfl
@[simp] theorem placeWord_regs : (placeWord w s).regs = s.regs := by unfold placeWord; split <;> rfl

end PlaceWord

theorem find?_set_self (m : Memory) (a v : Word) : (m.set a v).find? a = some v := by
  rw [Memory.find?, Memory.set, cellAt_cellsSet, if_pos rfl]

/-- In either kind of image the word is placed at the key the runner reads. -/
theorem fetchWord_placeWord (w : Word) (s : State) : fetchWord (placeWord w s) = some w := by
  cases hp : s.program with
  | held image => simp only [fetchWord, programImage, placeWord, hp, find?_set_self]
  | inMemory => simp only [fetchWord, programImage, placeWord, hp, find?_set_self]

theorem tableWord_toNat (w : Word) : tableWord 32 w.toNat = w := by
  rw [tableWord, Nat.mod_eq_of_lt w.isLt, BitVec.ofNat_toNat, BitVec.setWidth_eq]

/-- Settles O39: the placed word is the one the runner fetches, and it decodes to its instruction. -/
theorem placedWordIsRunNext : Obligations.PlacedWordIsRunNext := by
  intro s i
  rw [State.withFetchWord, tableWord_toNat]
  refine ⟨?_, placeWord_pc _ s, placeWord_regs _ s⟩
  exact (stepRunsTheDecodedInstruction _ _ (placeWord_calls _ s) (fetchWord_placeWord _ s)).1 i (decode_encode i)

/-! ### What every call keeps, every step keeps -/

section Keeps
variable {P : State → Prop}

/-- The state a step performs its calls in, and the calls before the one that decides the outcome, all meet `P`. -/
theorem step_eq_next_keeps (hcalls : ∀ s rest, P s → P { s with calls := rest })
    (hcall : ∀ c s t, P s → performCall c s = .next t → P t) {s t : State} (hs : P s) (h : step s = .next t) : P t := by
  cases hc : s.calls with
  | cons c rest =>
    rw [step_of_call hc] at h
    exact hcall c _ t (hcalls s rest hs) h
  | nil =>
    cases hw : fetchWord s with
    | none =>
      rw [step_of_idle hc hw] at h
      cases h
      exact hs
    | some w =>
      rw [step_of_word hc hw, runWord_eq_calls] at h
      obtain ⟨r, hr, ht⟩ := andThen_eq_next h
      exact clocks_keeps (hcall .nextClock) (hcall (.simulate w) s r hs hr) ht

/-- A step that faults faults in one boundary call, made in a state that the calls before it have kept in `P`. -/
theorem step_eq_fault_call (hcalls : ∀ s rest, P s → P { s with calls := rest })
    (hcall : ∀ c s t, P s → performCall c s = .next t → P t) {s : State} {f : Fault} (hs : P s)
    (h : step s = .fault f) : ∃ c r, P r ∧ performCall c r = .fault f := by
  cases hc : s.calls with
  | cons c rest =>
    rw [step_of_call hc] at h
    exact ⟨c, _, hcalls s rest hs, h⟩
  | nil =>
    cases hw : fetchWord s with
    | none =>
      rw [step_of_idle hc hw] at h
      cases h
    | some w =>
      rw [step_of_word hc hw, runWord_eq_calls] at h
      rcases andThen_eq_fault h with hsim | ⟨r, hr, hretire⟩
      · exact ⟨.simulate w, s, hs, hsim⟩
      · obtain ⟨j, q, hq, hf⟩ := clocks_eq_fault hretire
        exact ⟨.nextClock, q, clocks_keeps (hcall .nextClock) (hcall (.simulate w) s r hs hr) hq, hf⟩

end Keeps

end Sys2Proof.Machine
end

section
/-! PROOFS. The invariant of the machine (10_state.md R21 to R23, 20_memory.md R26, 40_sequencer.md R65, R74). Only
`simulate` and the clock touch the queue: `simulate` loads a whole sequence, a clock takes its head off, so what is left
is always the rest of the current instruction's sequence, in which the phases that read `aluResult` follow EXECUTE. -/

namespace Sys2Proof.Machine

/-! ### What a phase leaves outside the registers, memory and the queue (40_sequencer.md R66 to R73) -/

/-- What a completed phase of kind `p` makes of `ctrl`, the pc and `aluResult`, and the fields no phase changes. -/
structure PhaseEffect (p : PhaseKind) (s t : State) : Prop where
  ctrl : t.ctrl = phaseCtrl p (s.cur.bind wordAluLines)
  pc : p ≠ .fetch → p ≠ .branch → p ≠ .jump → t.pc = s.pc
  aluResult : p ≠ .execute → t.aluResult = s.aluResult
  aluResult_execute : p = .execute → t.aluResult ≠ none
  zeroHardwired : t.zeroHardwired = s.zeroHardwired
  calls : t.calls = s.calls
  program : t.program = s.program

theorem runPhase_effect {p : PhaseKind} {s t : State} (h : runPhase p s = .next t) : PhaseEffect p s t := by
  obtain ⟨l, hl, hfetch | hexecute | hwriteback | hread | hwrite | hbranch | hjump⟩ := runPhase_cases h
  · obtain ⟨rfl, -, rfl⟩ := hfetch
    constructor <;> simp [phaseCtrl]
  · obtain ⟨rfl, w, v, hcur, -, rfl⟩ := hexecute
    constructor <;> simp [hcur, hl w hcur]
  · obtain ⟨rfl, w, v, hcur, -, rfl⟩ := hwriteback
    constructor <;> simp [hcur, hl w hcur]
  · obtain ⟨rfl, w, a, hcur, -, rfl⟩ := hread
    constructor <;> simp [hcur, hl w hcur]
  · obtain ⟨rfl, w, a, hcur, -, rfl⟩ := hwrite
    constructor <;> simp [hcur, hl w hcur]
  · obtain ⟨rfl, w, hcur, -, rfl⟩ := hbranch
    constructor <;> simp [hcur, hl w hcur]
  · obtain ⟨rfl, w, hcur, rfl⟩ := hjump
    constructor <;> simp [hcur, hl w hcur]

/-! ### The sequences (40_sequencer.md R74) -/

/-- Phase `q` may follow phase `p`: one that reads `aluResult` follows EXECUTE only. -/
def MayFollow (p q : PhaseKind) : Prop := readsAluResult q = true → p = .execute

theorem isChain_phasesOf (i : Instr) : (phasesOf i).IsChain MayFollow := by
  cases i <;> simp [phasesOf, MayFollow, readsAluResult]

/-- In what is left of a sequence, a phase that reads `aluResult` still follows EXECUTE. -/
theorem eq_execute_of_suffix {i : Instr} {p q : PhaseKind} {rest : List PhaseKind}
    (h : p :: q :: rest <:+ phasesOf i) : readsAluResult q = true → p = .execute :=
  (List.isChain_cons_cons.1 ((isChain_phasesOf i).suffix h)).1

/-- A whole sequence starts with FETCH. -/
theorem phasesOf_eq_cons (i : Instr) : ∃ rest, phasesOf i = .fetch :: rest := by
  cases i <;> exact ⟨_, rfl⟩

theorem aluLinesOf_of_execute_mem {i : Instr} (h : PhaseKind.execute ∈ phasesOf i) : ∃ l, aluLinesOf i = some l := by
  cases i with
  | beq rs rt imm16 => simp [phasesOf] at h
  | j addr26 => simp [phasesOf] at h
  | _ => exact ⟨_, rfl⟩

/-! ### At reset (70_reset_and_hazards.md R105) -/

/-- Settles O43: nothing is queued, and both memories are empty. -/
theorem invariantAtReset : Obligations.InvariantAtReset := fun _ =>
  { memWf := wf_empty
    imageWf := fun image h => by cases h; exact wf_empty
    curLegal := fun w h => by cases h
    queueBelongs := .inl rfl
    aluReady := fun p rest h => by cases h
    ctrlAsserted := .inl rfl }

/-! ### Every call keeps it -/

theorem MachineInv.dropCall {s : State} (hs : MachineInv s) (rest : List HostCall) :
    MachineInv { s with calls := rest } :=
  { memWf := hs.memWf, imageWf := hs.imageWf, curLegal := hs.curLegal, queueBelongs := hs.queueBelongs,
    aluReady := hs.aluReady, ctrlAsserted := hs.ctrlAsserted }

/-- Only the canonical form is about memory. -/
theorem MachineInv.withMem {s : State} (hs : MachineInv s) {m : Memory} (hm : m.wf) : MachineInv { s with mem := m } :=
  { memWf := hm, imageWf := hs.imageWf, curLegal := hs.curLegal, queueBelongs := hs.queueBelongs,
    aluReady := hs.aluReady, ctrlAsserted := hs.ctrlAsserted }

/-- A freshly submitted instruction has its whole sequence before it. -/
theorem MachineInv.submit {s : State} (hs : MachineInv s) (i : Instr) : MachineInv (accept i s) :=
  { memWf := hs.memWf
    imageWf := hs.imageWf
    curLegal := fun w h => ⟨i, (Option.some.inj h).symm⟩
    queueBelongs := .inr ⟨i, rfl, List.suffix_refl _⟩
    aluReady := fun p rest h => by
      obtain ⟨rest', hfetch⟩ := phasesOf_eq_cons i
      rw [accept_queue, hfetch] at h
      cases h
      simp [readsAluResult]
    ctrlAsserted := hs.ctrlAsserted }

/-- A completed phase leaves the rest of the sequence, and `aluResult` filled if the next phase reads it. -/
theorem MachineInv.runPhase {s t : State} {p : PhaseKind} {rest : List PhaseKind} (hs : MachineInv s)
    (hq : s.queue = p :: rest) (h : Machine.runPhase p s = .next t) : MachineInv t := by
  have effect : PhaseEffect p s t := runPhase_effect h
  obtain ⟨hqueue, hcur⟩ := runPhase_queue_cur h
  rw [hq, List.tail_cons] at hqueue
  obtain ⟨i, hi, hsuffix⟩ := hs.queueBelongs.of_cons hq
  constructor
  case memWf =>
    rcases runPhase_mem h with hmem | ⟨-, w, a, -, -, hmem⟩
    · rw [hmem]
      exact hs.memWf
    · rw [hmem]
      exact wf_set hs.memWf a _
  case imageWf => exact fun image himage => hs.imageWf image (effect.program ▸ himage)
  case curLegal => exact fun w hw => hs.curLegal w (hcur ▸ hw)
  case queueBelongs => exact .inr ⟨i, hcur.trans hi, hqueue ▸ (List.suffix_cons p rest).trans hsuffix⟩
  case aluReady =>
    intro q rest' hq' hreads
    obtain rfl : rest = q :: rest' := hqueue.symm.trans hq'
    exact effect.aluResult_execute (eq_execute_of_suffix hsuffix hreads)
  case ctrlAsserted => exact .inr ⟨p, _, effect.ctrl⟩

theorem MachineInv.nextClock {s t : State} (hs : MachineInv s) (h : Machine.nextClock s = .next t) : MachineInv t := by
  cases hq : s.queue with
  | nil =>
    rw [nextClock_nil hq] at h
    cases h
    exact hs
  | cons p rest => exact hs.runPhase hq (nextClock_cons hq ▸ h)

theorem MachineInv.simulate {w : Word} {s t : State} (hs : MachineInv s) (h : Machine.simulate w s = .next t) :
    MachineInv t := by
  obtain ⟨i, hi, rfl⟩ := simulate_eq_next h
  obtain rfl := encode_of_decode hi
  exact hs.submit i

theorem MachineInv.performCall {c : HostCall} {s t : State} (hs : MachineInv s)
    (h : Machine.performCall c s = .next t) : MachineInv t := by
  cases c with
  | simulate w => exact hs.simulate h
  | nextClock => exact hs.nextClock h
  | registersRead name => exact performRegistersRead_eq_next h ▸ hs
  | memorySet addr value =>
    cases h
    exact hs.withMem (wf_set hs.memWf addr value)
  | memoryDestroy addr =>
    cases h
    exact hs.withMem (wf_destroy hs.memWf addr)
  | memoryAddresses => cases h; exact hs
  | memoryGet addr => cases h; exact hs
  | aluResult => cases h; exact hs
  | control line => cases h; exact hs

/-! ### Every step keeps it, and so does an error -/

/-- Settles O44: every boundary call keeps the invariant, and a step is such calls. -/
theorem stepKeepsInvariant : Obligations.StepKeepsInvariant := fun _ _ =>
  step_eq_next_keeps (fun _ rest hs => hs.dropCall rest) fun _ _ _ hs h => hs.performCall h

/-- A fault of a step is an error that one call raises, in a state of the invariant, which the call keeps. -/
theorem step_eq_fault_raised {s : State} {f : Fault} (hs : MachineInv s) (h : step s = .fault f) :
    ∃ c r e, MachineInv r ∧ performCall c r = .fault (.raised e r) ∧ f = .raised e r := by
  obtain ⟨c, r, hr, hf⟩ :=
    step_eq_fault_call (fun _ rest hs => hs.dropCall rest) (fun _ _ _ hs h => hs.performCall h) hs h
  rcases callCompletesOrChangesNothing c r hr with ⟨t, ht⟩ | ⟨e, he⟩
  · cases ht.symm.trans hf
  · exact ⟨c, r, e, hr, he, Host.Outcome.fault.inj (hf.symm.trans he)⟩

/-- Settles O45: the state kept is the one the failing call was made in. -/
theorem errorKeepsInvariant : Obligations.ErrorKeepsInvariant := by
  intro s k e hs h
  obtain ⟨c, r, e', hr, -, hf⟩ := step_eq_fault_raised hs h
  cases hf
  exact hr

/-! ### The stops no step reaches (40_sequencer.md R65) -/

/-- The ALU fails on a result off its range, or on a code that selects no operation. -/
theorem aluCompute_eq_error {code : Option (BitVec 3)} {a b : Word} {e : BoundaryError}
    (h : aluCompute code a b = .error e) :
    (∃ n, ¬ Fits32 n ∧ e = .range n 32) ∨ aluOpOfCode code = none ∧ e = .unsupportedOperation code := by
  cases hop : aluOpOfCode code with
  | none =>
    rw [aluCompute, hop] at h
    cases h
    exact .inr ⟨rfl, rfl⟩
  | some op =>
    rw [aluCompute, hop] at h
    dsimp only at h
    rw [aluApply_eq] at h
    split_ifs at h with hfits
    cases h
    exact .inl ⟨_, hfits, rfl⟩

/-- The lines of an instruction that has an EXECUTE phase select an operation, so the ALU can only overflow. -/
theorem nextClock_raised_ne_unsupported {s k : State} {e : BoundaryError} (hs : MachineInv s)
    (h : nextClock s = .fault (.raised e k)) (code : Option (BitVec 3)) : e ≠ .unsupportedOperation code := by
  obtain ⟨p, rest, hq, hp⟩ := nextClock_eq_raised h
  obtain ⟨i, hi, hsuffix⟩ := hs.queueBelongs.of_cons hq
  obtain ⟨-, ⟨-, rfl⟩ | ⟨rfl, w, hw, halu⟩ | ⟨-, w, -, -, rfl⟩⟩ := runPhase_eq_raised hp
  · simp
  · obtain rfl : encode i = w := Option.some.inj (hi.symm.trans hw)
    obtain ⟨l, hl⟩ := aluLinesOf_of_execute_mem (hsuffix.mem List.mem_cons_self)
    rw [wordAluLines_encode, hl, Option.map_some] at halu
    rcases aluCompute_eq_error halu with ⟨n, -, rfl⟩ | ⟨hnone, -⟩
    · simp
    · simp at hnone
  · simp

theorem performCall_raised_ne_unsupported {c : HostCall} {s k : State} {e : BoundaryError} (hs : MachineInv s)
    (h : performCall c s = .fault (.raised e k)) (code : Option (BitVec 3)) : e ≠ .unsupportedOperation code := by
  cases c with
  | nextClock => exact nextClock_raised_ne_unsupported hs h code
  | simulate w =>
    rw [performCall, simulate] at h
    split at h <;> cases h
    simp
  | registersRead name =>
    simp only [performCall, registersRead] at h
    cases hname : resolveName (dropDollar name) with
    | none =>
      rw [hname] at h
      cases h
      simp
    | some i =>
      rw [hname] at h
      cases h
  | memoryAddresses => cases h
  | memoryGet addr => cases h
  | memorySet addr value => cases h
  | memoryDestroy addr => cases h
  | aluResult => cases h
  | control line => cases h

/-- Settles O14: the codes beside the five select no operation; a fault of a step is an error some call raises, and no
call raises this one in a state of the invariant. -/
theorem unsupportedCodesFailAndAreUnreachable : Obligations.UnsupportedCodesFailAndAreUnreachable := by
  refine ⟨fun code a b hcode => ?_, fun s f hs h => ?_⟩
  · rcases hcode with rfl | rfl | rfl | rfl
    · rfl
    · rfl
    · rfl
    · rfl
  · obtain ⟨c, r, e, hr, hcall, rfl⟩ := step_eq_fault_raised hs h
    cases e with
    | unsupportedOperation code => exact absurd rfl (performCall_raised_ne_unsupported hr hcall code)
    | instructionNotFound offender => exact id
    | registerNotFound token => exact id
    | range n width => exact id

end Sys2Proof.Machine
end

section
/-! PROOFS. The phases (10_state.md R19, R21, R22; 40_sequencer.md R66 to R73, R77; 60_exceptions.md R91, R96): what each
completed phase changes, which lines it leaves, that the lines select its update, and what a phase that raises leaves. -/

namespace Sys2Proof.Machine

/-! ### A clock is idle or its head phase (40_sequencer.md R76) -/

theorem nextClock_eq_next {s t : State} (h : nextClock s = .next t) :
    (s.queue = [] ∧ t = s) ∨ ∃ p rest, s.queue = p :: rest ∧ runPhase p s = .next t := by
  cases hq : s.queue with
  | nil =>
    rw [nextClock_nil hq] at h
    cases h
    exact .inl ⟨rfl, rfl⟩
  | cons p rest => exact .inr ⟨p, rest, rfl, nextClock_cons hq ▸ h⟩

/-- The head phase of a completed clock, and its effect. -/
theorem nextClock_effect {s t : State} {p : PhaseKind} {rest : List PhaseKind} (hq : s.queue = p :: rest)
    (h : nextClock s = .next t) : PhaseEffect p s t :=
  runPhase_effect (nextClock_cons hq ▸ h)

/-! ### The lines a phase leaves (R21, R67 to R73) -/

theorem nextClock_ctrl {s t : State} {p : PhaseKind} {rest : List PhaseKind} (hq : s.queue = p :: rest)
    (h : nextClock s = .next t) : t.ctrl = phaseCtrl p (s.cur.bind wordAluLines) :=
  (nextClock_effect hq h).ctrl

/-- An instruction with ALU lines, and the two codes they carry (R68). -/
theorem aluLinesOf_of_codes {i : Instr} {selB : BitVec 2} {op : BitVec 3}
    (h : (i.mnemonic, selB, op) ∈
      [(Mnemonic.add, 0b00#2, 0b000#3), (.sub, 0b00, 0b001), (.and, 0b00, 0b010), (.or, 0b00, 0b011),
       (.slt, 0b00, 0b100), (.addi, 0b10, 0b000), (.lw, 0b10, 0b000), (.sw, 0b10, 0b000)]) :
    ∃ l, aluLinesOf i = some l ∧ l.srcB.code = selB ∧ l.op.code = op := by
  cases i with
  | beq rs rt imm16 => simp [Instr.mnemonic] at h
  | j addr26 => simp [Instr.mnemonic] at h
  | _ =>
    simp only [Instr.mnemonic, List.mem_cons, Prod.mk.injEq, reduceCtorEq, true_and, false_and, false_or, or_false,
      List.not_mem_nil] at h
    obtain ⟨rfl, rfl⟩ := h
    exact ⟨_, rfl, rfl, rfl⟩

/-- Settles O21: the record is a function of the head phase and the current word's ALU lines. -/
theorem controlLinesDoNotPersist : Obligations.ControlLinesDoNotPersist := by
  refine ⟨fun _ => rfl, rfl, fun s t rest h => ⟨?_, ?_, ?_, ?_, ?_, fun i selB op hcur hcodes => ?_⟩, ?_, ?_, ?_⟩
  · exact fun hq => nextClock_ctrl hq h
  · exact fun hq => nextClock_ctrl hq h
  · exact fun hq => nextClock_ctrl hq h
  · exact fun hq => nextClock_ctrl hq h
  · exact fun hq => nextClock_ctrl hq h
  · obtain ⟨l, hl, rfl, rfl⟩ := aluLinesOf_of_codes hcodes
    have hlines : s.cur.bind wordAluLines = some l := by rw [hcur, Option.bind_some, wordAluLines_encode, hl]
    refine ⟨fun hq => ?_, fun hq => ?_⟩
    · rw [nextClock_ctrl hq h, hlines]
      rfl
    · rw [nextClock_ctrl hq h, hlines]
      rfl
  · intro s t s' t' p rest rest' hq hq' hcur h h'
    rw [nextClock_ctrl hq h, nextClock_ctrl hq' h', hcur]
  · intro s t w h
    obtain ⟨i, -, rfl⟩ := simulate_eq_next h
    rfl
  · intro s t hq h
    rw [nextClock_nil hq] at h
    cases h
    rfl

/-! ### What each phase updates (R66 to R73) -/

/-- The test of `aluSelB` on the lines EXECUTE leaves is the operand the instruction's ALU lines select (R64). -/
theorem operandB_eq_of_executeCtrl (l : Option AluLines) (w : Word) (s : State) :
    operandB l w s = if (executeCtrl l).aluSelB = some 0b10 then (imm16Of w).signExtend 32 else s.x (rdOf w) := by
  rcases l with - | ⟨- | -, op⟩ <;> rfl

/-- Settles O20, phase by phase: the update of `runPhase_cases` is the one the statement writes out. -/
theorem oneUpdatePerPhase : Obligations.OneUpdatePerPhase := by
  intro s t h
  obtain ⟨hq, rfl⟩ | ⟨p, rest, hq, hp⟩ := nextClock_eq_next h
  · simp [hq]
  have htail : s.queue.tail = rest := by rw [hq, List.tail_cons]
  obtain ⟨l, -, hfetch | hexecute | hwriteback | hread | hwrite | hbranch | hjump⟩ := runPhase_cases hp
  all_goals simp only [htail] at *
  · obtain ⟨rfl, hroom, rfl⟩ := hfetch
    simpa [hq] using hroom
  · obtain ⟨rfl, w, v, hcur, halu, rfl⟩ := hexecute
    rw [operandB_eq_of_executeCtrl] at halu
    simpa [hq, hcur, phaseCtrl, executeCtrl, operandA] using halu
  · obtain ⟨rfl, w, v, hcur, hv, rfl⟩ := hwriteback
    simp [hq, hcur, hv]
  · obtain ⟨rfl, w, a, hcur, ha, rfl⟩ := hread
    simp [hq, hcur, ha, State.memRead]
  · obtain ⟨rfl, w, a, hcur, ha, rfl⟩ := hwrite
    simp [hq, hcur, ha, State.memWrite]
  · obtain ⟨rfl, w, hcur, -, rfl⟩ := hbranch
    simp [hq, hcur, branchTarget]
  · obtain ⟨rfl, w, hcur, rfl⟩ := hjump
    simp [hq, hcur, jumpTarget]

/-! ### Who writes `aluResult` and the pc (R19, R22) -/

/-- A clock that changes `aluResult` runs EXECUTE. -/
theorem nextClock_aluResult {s t : State} (h : nextClock s = .next t) (hne : t.aluResult ≠ s.aluResult) :
    ∃ rest, s.queue = .execute :: rest := by
  obtain ⟨-, rfl⟩ | ⟨p, rest, hq, hp⟩ := nextClock_eq_next h
  · exact absurd rfl hne
  · by_cases hexecute : p = .execute
    · exact ⟨rest, hexecute ▸ hq⟩
    · exact absurd ((runPhase_effect hp).aluResult hexecute) hne

/-- A clock that changes the pc runs FETCH, BRANCH or JUMP. -/
theorem nextClock_pc {s t : State} (h : nextClock s = .next t) (hne : t.pc ≠ s.pc) :
    ∃ rest, s.queue = .fetch :: rest ∨ s.queue = .branch :: rest ∨ s.queue = .jump :: rest := by
  obtain ⟨-, rfl⟩ | ⟨p, rest, hq, hp⟩ := nextClock_eq_next h
  · exact absurd rfl hne
  · refine ⟨rest, ?_⟩
    by_contra hothers
    simp only [hq, List.cons.injEq, and_true, not_or] at hothers
    obtain ⟨hfetch, hbranch, hjump⟩ := hothers
    exact hne ((runPhase_effect hp).pc hfetch hbranch hjump)

/-- A call other than the clock reaches memory, the queue and the current word only. -/
theorem performCall_eq_of_ne_nextClock {c : HostCall} {s t : State} (hc : c ≠ .nextClock)
    (h : performCall c s = .next t) : t = { s with mem := t.mem, queue := t.queue, cur := t.cur } := by
  cases c with
  | nextClock => exact absurd rfl hc
  | simulate w =>
    obtain ⟨i, -, rfl⟩ := simulate_eq_next h
    rfl
  | registersRead name => rw [performRegistersRead_eq_next h]
  | memoryAddresses => cases h; rfl
  | memoryGet addr => cases h; rfl
  | memorySet addr value => cases h; rfl
  | memoryDestroy addr => cases h; rfl
  | aluResult => cases h; rfl
  | control line => cases h; rfl

/-- Settles O22: who writes it, and a clock on a state of the invariant completes or raises an error. -/
theorem onlyExecuteWritesAluResult : Obligations.OnlyExecuteWritesAluResult := by
  refine ⟨fun _ => rfl, fun s t => nextClock_aluResult, fun c s t hc h => ?_, fun s k hs hstop => ?_⟩
  · rw [performCall_eq_of_ne_nextClock hc h]
  · rcases nextClock_completesOrKeeps hs with ⟨t, ht⟩ | ⟨e, he⟩
    · cases ht.symm.trans hstop
    · cases he.symm.trans hstop

/-- Settles O23: who writes it, and FETCH's advance, which has room when it completes. -/
theorem onlyFetchBranchJumpWritePc : Obligations.OnlyFetchBranchJumpWritePc := by
  refine ⟨fun s t => nextClock_pc, fun s t rest hq h => ?_, fun c s t hc h => ?_⟩
  · obtain ⟨-, hfetch, -⟩ := oneUpdatePerPhase s t h
    obtain ⟨hroom, ht⟩ := hfetch rest hq
    rw [ht]
    exact toNat_pc_add_four_of_room hroom
  · rw [performCall_eq_of_ne_nextClock hc h]

/-! ### The signal-level reading (R77) -/

/-- `aluSelA` is 1 in EXECUTE, and `aluSelB` selects what the instruction's ALU lines say (R64). -/
theorem muxB_executeCtrl (l : Option AluLines) (w : Word) (s : State) :
    muxB (executeCtrl l).aluSelB w s = operandB l w s :=
  (operandB_eq_of_executeCtrl l w s).symm

/-- With `pcWriteCond` alone asserted, the comparator's answer is the write enable. -/
theorem pcWritten_branchCtrl (w : Word) (s : State) :
    pcWritten branchCtrl w s = wordsEqual (s.x (rsOf w)) (s.x (rtOf w)) := by
  simp [pcWritten, branchCtrl, Ctrl.inert]

/-- A Word passes the pc's unsigned encoder unchanged. -/
theorem encU_toNat (v : Word) : encU (v.toNat : Int) 32 = .ok v :=
  encU_decU (w := 32) v

/-- A phase that asserts no other write enable writes the pc when its lines say so. -/
theorem datapathPhase_of_pcWritten {p : PhaseKind} {c : Ctrl} {w : Word} {s : State} (hp : p ≠ .execute)
    (hreg : c.regWrite ≠ 1) (hmem : c.memWrite ≠ 1) (hpc : pcWritten c w s = true) :
    datapathPhase p c w s = phaseFrame c ((encU (pcValue c.pcSource w s) 32).map fun t => { s with pc := t }) s := by
  rw [datapathPhase, if_neg hp, if_neg hreg, if_neg hmem, if_pos hpc]

/-- Settles O19, phase by phase: EXECUTE by its two operands, BRANCH by the comparator, JUMP by its target being a Word;
the others assert the one line of their update. -/
theorem signalLevelReadingAgrees : Obligations.SignalLevelReadingAgrees := by
  intro p s w hcur
  rw [runPhase_of_cur hcur]
  cases p with
  | fetch =>
    have hvalue : pcValue fetchCtrl.pcSource w s = incrementedPc s.pc := rfl
    rw [phaseCtrl, datapathPhase_of_pcWritten (by decide) (by decide) (by decide) rfl, hvalue, phaseOn, fetchPhase]
  | execute =>
    rw [phaseOn, datapathPhase, if_pos rfl, phaseCtrl, muxB_executeCtrl]
    rfl
  | aluWriteback => rfl
  | memRead => rfl
  | memWrite => rfl
  | branch =>
    rw [phaseOn, branchPhase, phaseCtrl]
    cases heq : wordsEqual (s.x (rsOf w)) (s.x (rtOf w)) with
    | true =>
      have hvalue : pcValue branchCtrl.pcSource w s = branchTarget s.pc (imm16Of w) := rfl
      rw [datapathPhase_of_pcWritten (by decide) (by decide) (by decide) ((pcWritten_branchCtrl w s).trans heq),
        hvalue, if_pos rfl]
    | false =>
      rw [datapathPhase, pcWritten_branchCtrl, heq]
      rfl
  | jump =>
    have hencoded : encU (pcValue jumpCtrl.pcSource w s) 32 = .ok (jumpTarget s.pc (addr26Of w)) := encU_toNat _
    rw [phaseCtrl, datapathPhase_of_pcWritten (by decide) (by decide) (by decide) rfl, hencoded]
    rfl

/-! ### What a phase that raises leaves (60_exceptions.md R91, R96) -/

/-- A clock's error is its head phase's. -/
theorem nextClock_raised {s k : State} {e : BoundaryError} (h : nextClock s = .fault (.raised e k)) :
    k = s ∧ ∃ rest,
      (s.queue = .fetch :: rest ∧ e = .range ((s.pc.toNat : Int) + 4) 32) ∨
      (s.queue = .execute :: rest ∧ ((∃ n, ¬ Fits32 n ∧ e = .range n 32) ∨ ∃ c, e = .unsupportedOperation c)) ∨
      (s.queue = .branch :: rest ∧ ∃ w, s.cur = some w ∧ s.x (rsOf w) = s.x (rtOf w) ∧
        e = .range (branchTarget s.pc (imm16Of w)) 32) := by
  obtain ⟨p, rest, hq, hp⟩ := nextClock_eq_raised h
  obtain ⟨hk, ⟨rfl, he⟩ | ⟨rfl, w, -, halu⟩ | ⟨rfl, hbranch⟩⟩ := runPhase_eq_raised hp
  · exact ⟨hk, rest, .inl ⟨hq, he⟩⟩
  · exact ⟨hk, rest, .inr (.inl ⟨hq, (aluCompute_eq_error halu).imp_right fun ⟨_, he⟩ => ⟨_, he⟩⟩)⟩
  · exact ⟨hk, rest, .inr (.inr ⟨hq, hbranch⟩)⟩

/-- An add with room that raises does so in EXECUTE, on the state FETCH left. -/
theorem exec_add_raised {rs rt rd : RegIdx} {s k : State} {e : BoundaryError} (hroom : FetchRoom s)
    (h : exec (.add rs rt rd) s = .fault (.raised e k)) :
    k = fetched (.add rs rt rd) [.execute, .aluWriteback] s := by
  cases halu : aluApply .add (s.x rt) (s.x rd) with
  | ok v => cases (exec_aluInstr_of_ok (rs := rs) hroom halu).symm.trans h
  | error e' =>
    cases (exec_aluInstr_of_error (rs := rs) hroom halu).symm.trans h
    rfl

/-- Settles O47: the head phase's errors, and the state FETCH leaves of an add. -/
theorem whichPhaseCanRaiseWhat : Obligations.WhichPhaseCanRaiseWhat := by
  refine ⟨fun s k e => nextClock_raised, fun rs rt rd s k e hroom h => ?_⟩
  obtain rfl := exec_add_raised hroom h
  exact ⟨toNat_pc_add_four_of_room hroom, rfl, rfl, rfl, rfl⟩

/-- Settles O48: an instruction's error is one clock's, which keeps its state and so meets it again. -/
theorem instructionErrorIsStuck : Obligations.InstructionErrorIsStuck := by
  intro i s k e h
  rw [exec_eq_retire_accept] at h
  obtain ⟨j, r, -, hraised⟩ := clocks_eq_fault h
  obtain rfl := nextClock_raised_keeps hraised
  exact ⟨hraised, fun i' => simulate_encode i' k⟩

end Sys2Proof.Machine
end

section
/-! PROOFS. Memory, the ALU, and what the host sees and can change (20_memory.md R26 to R30; 40_sequencer.md R62, R63;
70_reset_and_hazards.md R105, R109). -/

namespace Sys2Proof.Machine

/-! ### The enumeration of memory (20_memory.md R26, R28, R30) -/

theorem cellsSet_unlisted {l : List (Word × Word)} {a : Word} (v : Word) (h : a ∉ l.map (·.1)) :
    cellsSet l a v = l ++ [(a, v)] := by
  induction l with
  | nil => rfl
  | cons c l ih =>
    rw [List.map_cons, List.mem_cons, not_or] at h
    obtain ⟨hne, htail⟩ := h
    rw [cellsSet, if_neg (Ne.symm hne), ih htail, List.cons_append]

theorem addresses_set_unlisted {m : Memory} {a : Word} (v : Word) (h : a ∉ m.addresses) :
    (m.set a v).addresses = m.addresses ++ [a] := by
  rw [addresses_set, if_neg h]

/-- Settles O11: a write to a listed address keeps the list, one to an unlisted address appends, and a destroyed
address is unlisted. -/
theorem memoryInsertionOrder : Obligations.MemoryInsertionOrder := by
  intro m a v
  refine ⟨fun hlisted => ?_, fun hunlisted => cellsSet_unlisted v hunlisted, addresses_destroy m a, ?_⟩
  · rw [addresses_set, if_pos hlisted]
  · rw [addresses_set_unlisted v (not_mem_addresses_destroy m a), addresses_destroy]

/-- Settles O12: no operation lists an address twice. -/
theorem memoryOperationsKeepForm : Obligations.MemoryOperationsKeepForm :=
  ⟨wf_empty, fun _ a v h => ⟨wf_set h a v, wf_destroy h a⟩⟩

/-! ### The ALU's table (40_sequencer.md R62, R63) -/

/-- Settles O13: each code selects its operation; add and subtract answer through the 32-bit signed codec. -/
theorem aluComputesTheTable : Obligations.AluComputesTheTable := by
  intro a b
  refine ⟨fun hfits => ?_, fun hfits => ?_, fun hfits => ?_, fun hfits => ?_, ?_, ?_, ?_⟩
  · exact ⟨_, (aluCompute_code .add a b).trans (encS_32_of_fits hfits), toInt_ofInt_32 hfits⟩
  · exact (aluCompute_code .add a b).trans (encS_32_of_not_fits hfits)
  · exact ⟨_, (aluCompute_code .sub a b).trans (encS_32_of_fits hfits), toInt_ofInt_32 hfits⟩
  · exact (aluCompute_code .sub a b).trans (encS_32_of_not_fits hfits)
  · exact aluCompute_code .and a b
  · exact aluCompute_code .or a b
  · exact (aluCompute_code .slt a b).trans (aluApply_slt a b)

/-! ### The state after reset (70_reset_and_hazards.md R105) -/

/-- Settles O42: every element is the parameter's or the fixed value `resetFor` writes; no address is listed. -/
theorem resetState : Obligations.ResetState := by
  intro p
  refine ⟨fun i => ?_, rfl, fun a => ?_, rfl, rfl, rfl, rfl, rfl⟩
  · simp [State.x, State.resetFor]
  · exact get_unlisted Memory.empty a List.not_mem_nil

/-! ### What the host can change (70_reset_and_hazards.md R109) -/

/-- Settles O37, call by call: only the two mutators reach memory, one cell each. -/
theorem hostCallsFrame : Obligations.HostCallsFrame := by
  intro c s t hclock hsimulate h
  cases c with
  | simulate w => exact absurd rfl (hsimulate w)
  | nextClock => exact absurd rfl hclock
  | memorySet addr value =>
    cases h
    refine ⟨rfl, fun hset => absurd rfl (hset addr value), fun a v hc b => ?_, nofun⟩
    cases hc
    exact get_set s.mem addr b value
  | memoryDestroy addr =>
    cases h
    refine ⟨rfl, fun _ hdestroy => absurd rfl (hdestroy addr), nofun, fun a hc b => ?_⟩
    cases hc
    exact get_destroy s.mem addr b
  | registersRead name =>
    obtain rfl := performRegistersRead_eq_next h
    simp
  | memoryAddresses => cases h; simp
  | memoryGet addr => cases h; simp
  | aluResult => cases h; simp
  | control line => cases h; simp

/-! ### What the accessors return (70_reset_and_hazards.md R109) -/

@[simp] theorem length_bitString {n : Nat} (v : BitVec n) : (bitString v).length = n := by
  simp [bitString]

/-- Most-significant bit first (00_scope.md R8). -/
theorem getElem?_bitString {n k : Nat} (v : BitVec n) (hk : k < n) :
    (bitString v)[k]? = some (if v.getLsbD (n - 1 - k) then '1' else '0') := by
  simp [bitString, hk]

theorem replyOf_memoryGet (s : State) (a : Word) : replyOf (.memoryGet a) s = .word (s.mem.get a) := rfl

theorem replyOf_memoryAddresses (s : State) : replyOf .memoryAddresses s = .addresses s.mem.addresses := rfl

/-- Settles O57: a reply is the field it names; the two mutators by the laws of memory. -/
theorem accessorsReturnWhatTheStateHolds : Obligations.AccessorsReturnWhatTheStateHolds := by
  refine ⟨fun s a l => ⟨rfl, rfl, rfl, rfl⟩, fun s a v hwf hmem => ?_, fun s a hunlisted => ?_, fun s => rfl,
    fun s t a b v h => ?_, fun s t a b h => ?_, fun s => rfl,
    fun s => ⟨rfl, rfl, rfl, rfl, rfl, rfl, rfl, rfl, rfl, rfl, rfl, rfl⟩,
    fun n v => ⟨length_bitString v, fun k => getElem?_bitString v⟩⟩
  · rw [replyOf_memoryGet, get_of_mem hwf hmem]
  · rw [replyOf_memoryGet, get_unlisted s.mem a hunlisted]
  · obtain rfl : memorySet a v s = t := Host.Outcome.next.inj h
    simp only [replyOf_memoryGet, replyOf_memoryAddresses, memorySet]
    exact ⟨by rw [get_set_self], fun hne => by rw [get_set_other s.mem v hne], by rw [addresses_set]⟩
  · obtain rfl : memoryDestroy a s = t := Host.Outcome.next.inj h
    simp only [replyOf_memoryGet, replyOf_memoryAddresses, memoryDestroy]
    exact ⟨by rw [get_destroy, if_pos rfl], fun hne => by rw [get_destroy, if_neg hne], by rw [addresses_destroy]⟩

end Sys2Proof.Machine
end

section
/-! PROOFS. What an instruction reads and what it leaves alone (10_state.md R15 to R17; 20_memory.md R35; R79 to R88;
70_reset_and_hazards.md R112). An instruction that completes had room in FETCH, and retires in a state written out for
each shape; frames and independence are read off those states. -/

namespace Sys2Proof.Machine

/-! ### The parameter of register 0 (10_state.md R15) -/

theorem performCall_zeroHardwired {c : HostCall} {s t : State} (h : performCall c s = .next t) :
    t.zeroHardwired = s.zeroHardwired := by
  by_cases hc : c = .nextClock
  · subst hc
    obtain ⟨-, rfl⟩ | ⟨p, rest, -, hp⟩ := nextClock_eq_next h
    · rfl
    · exact (runPhase_effect hp).zeroHardwired
  · rw [performCall_eq_of_ne_nextClock hc h]

theorem step_zeroHardwired {s t : State} (h : step s = .next t) : t.zeroHardwired = s.zeroHardwired :=
  step_eq_next_keeps (P := fun r => r.zeroHardwired = s.zeroHardwired) (fun _ _ hr => hr)
    (fun _ _ _ hr hcall => (performCall_zeroHardwired hcall).trans hr) rfl h

/-- Settles O41: no call changes the parameter, which is what the read and the write of register 0 turn on. -/
theorem registerZeroKeepsItsKind : Obligations.RegisterZeroKeepsItsKind := by
  refine ⟨fun s t => step_zeroHardwired, fun s t hz h => ?_, fun s v hz => ?_⟩
  · simp [State.x, (step_zeroHardwired h).trans hz]
  · rw [x_setX_self, if_neg (by simp [hz])]

/-! ### An instruction that completed, shape by shape -/

theorem fetchRoom_of_exec {i : Instr} {s t : State} (h : exec i s = .next t) : FetchRoom s := by
  by_contra hroom
  cases (exec_of_no_room i hroom).symm.trans h

section Inversion
variable {op : AluOp} {rs rt rd : RegIdx} {imm16 : BitVec 16} {addr26 : BitVec 26} {s t : State}

theorem exec_aluInstr_eq_next (h : exec (aluInstr op rs rt rd) s = .next t) :
    FetchRoom s ∧ ∃ v, aluApply op (s.x rt) (s.x rd) = .ok v ∧
      t = retiredAlu (aluInstr op rs rt rd) 0b00 op.code rs v s := by
  have hroom : FetchRoom s := fetchRoom_of_exec h
  cases hv : aluApply op (s.x rt) (s.x rd) with
  | ok v => exact ⟨hroom, v, rfl, Host.Outcome.next.inj (h.symm.trans (exec_aluInstr_of_ok hroom hv))⟩
  | error e => cases (exec_aluInstr_of_error hroom hv).symm.trans h

theorem exec_addi_eq_next (h : exec (.addi rs rt imm16) s = .next t) :
    FetchRoom s ∧ Fits32 ((s.x rt).toInt + imm16.toInt) ∧
      t = retiredAlu (.addi rs rt imm16) 0b10 0b000 rs (BitVec.ofInt 32 ((s.x rt).toInt + imm16.toInt)) s := by
  have hroom : FetchRoom s := fetchRoom_of_exec h
  by_cases hfits : Fits32 ((s.x rt).toInt + imm16.toInt)
  · exact ⟨hroom, hfits, Host.Outcome.next.inj (h.symm.trans (exec_addi_of_fits hroom hfits))⟩
  · cases (exec_addi_of_not_fits hroom hfits).symm.trans h

theorem exec_lw_eq_next (h : exec (.lw rs rt imm16) s = .next t) :
    FetchRoom s ∧ Fits32 ((s.x rt).toInt + imm16.toInt) ∧ ∃ a, a = BitVec.ofInt 32 ((s.x rt).toInt + imm16.toInt) ∧
      t = { s.setX rs (s.mem.get a) with
        aluResult := some a, pc := s.pc + 4, queue := [], cur := some (encode (.lw rs rt imm16)),
        ctrl := memReadCtrl } := by
  have hroom : FetchRoom s := fetchRoom_of_exec h
  by_cases hfits : Fits32 ((s.x rt).toInt + imm16.toInt)
  · exact ⟨hroom, hfits, _, rfl, Host.Outcome.next.inj (h.symm.trans (exec_lw_of_fits hroom hfits rfl))⟩
  · cases (exec_lw_of_not_fits hroom hfits).symm.trans h

theorem exec_sw_eq_next (h : exec (.sw rs rt imm16) s = .next t) :
    FetchRoom s ∧ Fits32 ((s.x rt).toInt + imm16.toInt) ∧ ∃ a, a = BitVec.ofInt 32 ((s.x rt).toInt + imm16.toInt) ∧
      t = { s with
        mem := s.mem.set a (s.x rs), aluResult := some a, pc := s.pc + 4, queue := [],
        cur := some (encode (.sw rs rt imm16)), ctrl := memWriteCtrl } := by
  have hroom : FetchRoom s := fetchRoom_of_exec h
  by_cases hfits : Fits32 ((s.x rt).toInt + imm16.toInt)
  · exact ⟨hroom, hfits, _, rfl, Host.Outcome.next.inj (h.symm.trans (exec_sw_of_fits hroom hfits rfl))⟩
  · cases (exec_sw_of_not_fits hroom hfits).symm.trans h

theorem exec_beq_eq_next (h : exec (.beq rs rt imm16) s = .next t) :
    FetchRoom s ∧ (s.x rs = s.x rt → TargetFits (s.pc + 4) imm16) ∧
      t = { s with
        pc := if s.x rs = s.x rt then BitVec.ofInt 32 (branchTarget (s.pc + 4) imm16) else s.pc + 4, queue := [],
        cur := some (encode (.beq rs rt imm16)), ctrl := branchCtrl } := by
  have hroom : FetchRoom s := fetchRoom_of_exec h
  by_cases heq : s.x rs = s.x rt
  · by_cases hfits : TargetFits (s.pc + 4) imm16
    · refine ⟨hroom, fun _ => hfits, ?_⟩
      rw [if_pos heq]
      exact Host.Outcome.next.inj (h.symm.trans (exec_beq_of_fits hroom heq hfits))
    · cases (exec_beq_of_not_fits hroom heq hfits).symm.trans h
  · refine ⟨hroom, fun e => absurd e heq, ?_⟩
    rw [if_neg heq]
    exact Host.Outcome.next.inj (h.symm.trans (exec_beq_of_ne hroom heq))

theorem exec_beq_of_room (hroom : FetchRoom s) (hfits : s.x rs = s.x rt → TargetFits (s.pc + 4) imm16) :
    exec (.beq rs rt imm16) s =
      .next { s with
        pc := if s.x rs = s.x rt then BitVec.ofInt 32 (branchTarget (s.pc + 4) imm16) else s.pc + 4, queue := [],
        cur := some (encode (.beq rs rt imm16)), ctrl := branchCtrl } := by
  by_cases heq : s.x rs = s.x rt
  · rw [exec_beq_of_fits hroom heq (hfits heq), if_pos heq]
  · rw [exec_beq_of_ne hroom heq, if_neg heq]

theorem exec_j_eq_next (h : exec (.j addr26) s = .next t) :
    FetchRoom s ∧
      t = { s with
        pc := jumpTarget (s.pc + 4) addr26, ctrl := jumpCtrl, queue := [], cur := some (encode (.j addr26)) } := by
  have hroom : FetchRoom s := fetchRoom_of_exec h
  exact ⟨hroom, Host.Outcome.next.inj (h.symm.trans (execJ_of_room addr26 hroom))⟩

end Inversion

/-! ### Frames (R79 to R88) -/

/-- What `t` keeps of `s` when only register `rs`, the pc and the control state were written. -/
def KeepsAllBut (rs : RegIdx) (s t : State) : Prop :=
  (∀ j, j ≠ rs → t.x j = s.x j) ∧ (∀ a, t.memRead a = s.memRead a) ∧ t.mem = s.mem ∧
    t.zeroHardwired = s.zeroHardwired ∧ t.calls = s.calls ∧ t.program = s.program

/-- A state that is a register write but for the pc and the control state keeps everything else. -/
theorem keepsAllBut_setX {rs : RegIdx} {v : Word} {s t : State} {r : Option Word} {pc : Word} {q : List PhaseKind}
    {w : Option Word} {c : Ctrl}
    (ht : t = { s.setX rs v with aluResult := r, pc := pc, queue := q, cur := w, ctrl := c }) : KeepsAllBut rs s t := by
  subst ht
  refine ⟨fun j hj => ?_, fun a => ?_, setX_mem s rs v, setX_zeroHardwired s rs v, setX_calls s rs v,
    setX_program s rs v⟩
  · exact (x_congr rfl rfl j).trans (x_setX_other s v hj)
  · exact congrArg (Memory.get · a) (setX_mem s rs v)

theorem exec_aluInstr_keepsAllBut {op : AluOp} {rs rt rd : RegIdx} {s t : State}
    (h : exec (aluInstr op rs rt rd) s = .next t) : KeepsAllBut rs s t := by
  obtain ⟨-, v, -, ht⟩ := exec_aluInstr_eq_next h
  exact keepsAllBut_setX ht

/-- Settles O34: each of the seven retires in a register write, but for the pc and the control state. -/
theorem registerWritersFrame : Obligations.RegisterWritersFrame := by
  intro i rs s t hi h
  rcases hi with ⟨rt, rd, rfl⟩ | ⟨rt, rd, rfl⟩ | ⟨rt, rd, rfl⟩ | ⟨rt, rd, rfl⟩ | ⟨rt, rd, rfl⟩ | ⟨rt, imm, rfl⟩ |
    ⟨rt, imm, rfl⟩
  · exact exec_aluInstr_keepsAllBut (op := .add) h
  · exact exec_aluInstr_keepsAllBut (op := .sub) h
  · exact exec_aluInstr_keepsAllBut (op := .and) h
  · exact exec_aluInstr_keepsAllBut (op := .or) h
  · exact exec_aluInstr_keepsAllBut (op := .slt) h
  · obtain ⟨-, -, ht⟩ := exec_addi_eq_next h
    exact keepsAllBut_setX ht
  · obtain ⟨-, -, a, -, ht⟩ := exec_lw_eq_next h
    exact keepsAllBut_setX ht

/-- The ALU's sum of a base and an immediate is the effective address. -/
theorem aluCompute_add_simm {b : Word} {imm16 : BitVec 16} (hfits : Fits32 (b.toInt + imm16.toInt)) :
    aluCompute (some 0b000) b (simm imm16) = .ok (BitVec.ofInt 32 (b.toInt + imm16.toInt)) := by
  rw [← toInt_simm] at hfits ⊢
  exact (aluCompute_code .add b (simm imm16)).trans (encS_32_of_fits hfits)

/-- Settles O35: the one cell written is at the ALU's sum. -/
theorem storeFrame : Obligations.StoreFrame := by
  intro rs rt imm16 s t h
  obtain ⟨-, hfits, a, rfl, rfl⟩ := exec_sw_eq_next h
  refine ⟨fun j => x_congr rfl rfl j, rfl, rfl, rfl, rfl, fun a' ha' => ?_⟩
  rw [aluCompute_add_simm hfits] at ha'
  cases ha'
  exact ⟨get_set_self s.mem _ _, fun b hb => get_set_other s.mem _ hb⟩

/-- Settles O36: both write the pc, and beside it the control state without `aluResult`. -/
theorem controlTransferFrame : Obligations.ControlTransferFrame := by
  intro i s t hi h
  rcases hi with ⟨rs, rt, imm, rfl⟩ | ⟨addr, rfl⟩
  · obtain ⟨-, -, rfl⟩ := exec_beq_eq_next h
    exact ⟨fun j => x_congr rfl rfl j, rfl, fun a => rfl, rfl, rfl, rfl, rfl, rfl⟩
  · obtain ⟨-, rfl⟩ := exec_j_eq_next h
    exact ⟨fun j => x_congr rfl rfl j, rfl, fun a => rfl, rfl, rfl, rfl, rfl, rfl⟩

/-! ### Loads after stores (20_memory.md R35) -/

/-- Settles O49: the base register is as it was, so both form one address, and the load writes what the store left. -/
theorem loadAfterStoreGivesTheStoredWord : Obligations.LoadAfterStoreGivesTheStoredWord := by
  intro rs rt rd imm16 s t u hrd hsw hlw
  obtain ⟨-, -, a, rfl, rfl⟩ := exec_sw_eq_next hsw
  obtain ⟨-, -, a', rfl, rfl⟩ := exec_lw_eq_next hlw
  have hwritable : ¬ (s.zeroHardwired = true ∧ rd = 0) := by
    rintro ⟨hz, hzero⟩
    rcases hrd with h | h
    · exact absurd (hz.symm.trans h) (by decide)
    · exact h hzero
  refine (x_congr rfl rfl rd).trans ((x_setX_self _ rd _).trans ?_)
  rw [if_neg hwritable]
  exact get_set_self s.mem _ _

/-! ### Independence (20_memory.md R35; 70_reset_and_hazards.md R112) -/

/-- What an ALU instruction retires in turns on memory nowhere, and replaces the control state. -/
theorem retiredAlu_withMem (i : Instr) (selB : BitVec 2) (op : BitVec 3) (rs : RegIdx) (v : Word) (s : State)
    (m : Memory) :
    retiredAlu i selB op rs v { s with mem := m } = { retiredAlu i selB op rs v s with mem := m } := by
  unfold retiredAlu State.setX
  split <;> rfl

theorem exec_aluInstr_withMem {op : AluOp} {rs rt rd : RegIdx} {s t : State} (m : Memory)
    (h : exec (aluInstr op rs rt rd) s = .next t) :
    exec (aluInstr op rs rt rd) { s with mem := m } = .next { t with mem := m } := by
  obtain ⟨hroom, v, hv, rfl⟩ := exec_aluInstr_eq_next h
  rw [← retiredAlu_withMem]
  exact exec_aluInstr_of_ok hroom hv

/-- Settles O50: each instruction retires on the changed memory in the state it retired in, memory aside. -/
theorem memoryIsReadByLoadsOnly : Obligations.MemoryIsReadByLoadsOnly := by
  intro i s t m hlw hsw h
  cases i with
  | add rs rt rd => exact exec_aluInstr_withMem (op := .add) m h
  | sub rs rt rd => exact exec_aluInstr_withMem (op := .sub) m h
  | and rs rt rd => exact exec_aluInstr_withMem (op := .and) m h
  | or rs rt rd => exact exec_aluInstr_withMem (op := .or) m h
  | slt rs rt rd => exact exec_aluInstr_withMem (op := .slt) m h
  | addi rs rt imm16 =>
    obtain ⟨hroom, hfits, rfl⟩ := exec_addi_eq_next h
    rw [← retiredAlu_withMem]
    exact exec_addi_of_fits hroom hfits
  | lw rs rt imm16 => exact absurd rfl hlw
  | sw rs rt imm16 => exact absurd rfl hsw
  | beq rs rt imm16 =>
    obtain ⟨hroom, hfits, rfl⟩ := exec_beq_eq_next h
    exact exec_beq_of_room hroom hfits
  | j addr26 =>
    obtain ⟨hroom, rfl⟩ := exec_j_eq_next h
    exact execJ_of_room addr26 hroom

section Control
variable (s : State) (c : Ctrl) (q : List PhaseKind) (w r : Option Word)

/-- The state with another control record, queue, current word and `aluResult`. -/
def withControl : State := { s with ctrl := c, queue := q, cur := w, aluResult := r }

/-- A register write with the control state written after it does not depend on the control state before. -/
theorem setX_withControl (rs : RegIdx) (v pc : Word) (c' : Ctrl) (q' : List PhaseKind) (w' r' : Option Word) :
    ({ (withControl s c q w r).setX rs v with aluResult := r', pc := pc, queue := q', cur := w', ctrl := c' } : State) =
      { s.setX rs v with aluResult := r', pc := pc, queue := q', cur := w', ctrl := c' } := by
  have hz : (withControl s c q w r).zeroHardwired = s.zeroHardwired := rfl
  unfold State.setX
  rw [hz]
  split <;> rfl

/-- FETCH's room turns on the pc alone. -/
theorem fetchRoom_withControl (h : FetchRoom s) : FetchRoom (withControl s c q w r) := h

theorem retiredAlu_withControl (i : Instr) (selB : BitVec 2) (op : BitVec 3) (rs : RegIdx) (v : Word) :
    retiredAlu i selB op rs v (withControl s c q w r) = retiredAlu i selB op rs v s := by
  rw [retiredAlu, setX_withControl]
  rfl

theorem exec_aluInstr_withControl {op : AluOp} {rs rt rd : RegIdx} {t : State}
    (h : exec (aluInstr op rs rt rd) s = .next t) : exec (aluInstr op rs rt rd) (withControl s c q w r) = .next t := by
  obtain ⟨hroom, v, hv, rfl⟩ := exec_aluInstr_eq_next h
  rw [exec_aluInstr_of_ok (fetchRoom_withControl s c q w r hroom) hv, retiredAlu_withControl]

end Control

/-- Settles O51: the operands, the pc and memory are as they were, and what is retired in overwrites the control
state; beq and j alone leave `aluResult`. -/
theorem noDependenceOnEarlierControlState : Obligations.NoDependenceOnEarlierControlState := by
  intro i s t c q w r h
  have hroom : FetchRoom (withControl s c q w r) := fetchRoom_withControl s c q w r (fetchRoom_of_exec h)
  cases i with
  | add rs rt rd => exact exec_aluInstr_withControl s c q w r (op := .add) h
  | sub rs rt rd => exact exec_aluInstr_withControl s c q w r (op := .sub) h
  | and rs rt rd => exact exec_aluInstr_withControl s c q w r (op := .and) h
  | or rs rt rd => exact exec_aluInstr_withControl s c q w r (op := .or) h
  | slt rs rt rd => exact exec_aluInstr_withControl s c q w r (op := .slt) h
  | addi rs rt imm16 =>
    obtain ⟨-, hfits, rfl⟩ := exec_addi_eq_next h
    exact (exec_addi_of_fits hroom hfits).trans (congrArg Host.Outcome.next (retiredAlu_withControl s c q w r _ _ _ rs _))
  | lw rs rt imm16 =>
    obtain ⟨-, hfits, a, ha, rfl⟩ := exec_lw_eq_next h
    exact (exec_lw_of_fits hroom hfits ha).trans
      (congrArg Host.Outcome.next (setX_withControl s c q w r rs _ _ _ _ _ _))
  | sw rs rt imm16 =>
    obtain ⟨-, hfits, a, ha, rfl⟩ := exec_sw_eq_next h
    exact exec_sw_of_fits hroom hfits ha
  | beq rs rt imm16 =>
    obtain ⟨-, hfits, rfl⟩ := exec_beq_eq_next h
    exact exec_beq_of_room hroom hfits
  | j addr26 =>
    obtain ⟨-, rfl⟩ := exec_j_eq_next h
    exact execJ_of_room addr26 hroom

end Sys2Proof.Machine
end

section
/-! PROOFS. Numerals and register names (30_encoding.md R52, R55, R56). The one idea: reading a numeral and writing one
are inverse, as long as the numeral has no leading zero and the writer has fuel for its digits. -/

namespace Sys2Proof.Machine

/-! ### Digits -/

/-- The value of a digit. -/
def digitValue (c : Char) : Nat := c.toNat - '0'.toNat

/-- The digit of a value below ten. -/
def digitChar (d : Nat) : Char := Char.ofNat ('0'.toNat + d)

/-- The value of a string of digits, read on from `n`. -/
def digitsValue (n : Nat) (t : Text) : Nat := t.foldl (fun m c => 10 * m + digitValue c) n

theorem parseNat_eq (t : Text) : parseNat t = if t ≠ [] ∧ t.all isDigit then some (digitsValue 0 t) else none := rfl

theorem isDigit_digitChar : ∀ {d : Nat}, d < 10 → isDigit (digitChar d) = true := by decide

theorem digitValue_digitChar : ∀ {d : Nat}, d < 10 → digitValue (digitChar d) = d := by decide

theorem digitValue_lt {c : Char} (h : isDigit c = true) : digitValue c < 10 := by
  simp only [isDigit, Bool.and_eq_true, decide_eq_true_eq] at h
  have hnine : '9'.toNat = 57 := rfl
  have hzero : '0'.toNat = 48 := rfl
  rw [digitValue]
  omega

theorem digitChar_digitValue {c : Char} (h : isDigit c = true) : digitChar (digitValue c) = c := by
  simp only [isDigit, Bool.and_eq_true, decide_eq_true_eq] at h
  rw [digitChar, digitValue, Nat.add_sub_cancel' h.1, Char.ofNat_toNat]

theorem digitsValue_append (n : Nat) (t : Text) (c : Char) :
    digitsValue n (t ++ [c]) = 10 * digitsValue n t + digitValue c := by
  simp [digitsValue]

/-! ### Reading what was written -/

theorem natTextAux_succ (fuel n : Nat) (acc : Text) :
    natTextAux (fuel + 1) n acc =
      if n < 10 then digitChar n :: acc else natTextAux fuel (n / 10) (digitChar (n % 10) :: acc) := rfl

theorem natTextAux_ne_nil (fuel n : Nat) {acc : Text} (h : acc ≠ []) : natTextAux fuel n acc ≠ [] := by
  induction fuel generalizing n acc with
  | zero => exact h
  | succ fuel ih =>
    rw [natTextAux_succ]
    split
    · exact List.cons_ne_nil _ _
    · exact ih _ (List.cons_ne_nil _ _)

theorem all_isDigit_natTextAux (fuel n : Nat) {acc : Text} (h : acc.all isDigit = true) :
    (natTextAux fuel n acc).all isDigit = true := by
  induction fuel generalizing n acc with
  | zero => exact h
  | succ fuel ih =>
    rw [natTextAux_succ]
    split
    · next hn => rw [List.all_cons, isDigit_digitChar hn, h, Bool.and_self]
    · exact ih _ (by rw [List.all_cons, isDigit_digitChar (Nat.mod_lt n (by decide)), h, Bool.and_self])

/-- Reading a written numeral reads its number first. -/
theorem digitsValue_natTextAux {fuel n : Nat} (acc : Text) (hn : n < 10 ^ fuel) :
    digitsValue 0 (natTextAux fuel n acc) = digitsValue n acc := by
  induction fuel generalizing n acc with
  | zero =>
    obtain rfl : n = 0 := by omega
    rfl
  | succ fuel ih =>
    rw [natTextAux_succ]
    split
    · next hlt => simp [digitsValue, digitValue_digitChar hlt]
    · have hmod : n % 10 < 10 := Nat.mod_lt n (by decide)
      rw [ih _ (Nat.div_lt_of_lt_mul (by rwa [Nat.pow_succ'] at hn))]
      simp only [digitsValue, List.foldl_cons, digitValue_digitChar hmod, Nat.div_add_mod]

theorem natText_ne_nil (n : Nat) : natText n ≠ [] := by
  rw [natText, natTextAux_succ]
  split
  · exact List.cons_ne_nil _ _
  · exact natTextAux_ne_nil _ _ (List.cons_ne_nil _ _)

theorem all_isDigit_natText (n : Nat) : (natText n).all isDigit = true := all_isDigit_natTextAux 10 n rfl

theorem parseNat_natText {n : Nat} (hn : n < 10 ^ 10) : parseNat (natText n) = some n := by
  rw [parseNat_eq, if_pos ⟨natText_ne_nil n, all_isDigit_natText n⟩, natText, digitsValue_natTextAux [] hn]
  rfl

/-! ### Writing what was read -/

/-- A string of digits with no leading zero, except `0` itself (30_encoding.md R55). -/
def Canonical (t : Text) : Prop := t ≠ [] ∧ t.all isDigit = true ∧ (t = ['0'] ∨ t.head? ≠ some '0')

/-- Without a leading zero a numeral is positive: its first digit counts. -/
theorem digitsValue_pos {t : Text} (hne : t ≠ []) (hd : t.all isDigit = true) (hz : t.head? ≠ some '0') :
    0 < digitsValue 0 t := by
  induction t using List.reverseRecOn with
  | nil => exact absurd rfl hne
  | append_singleton t c ih =>
    rw [List.all_append, Bool.and_eq_true] at hd
    rw [digitsValue_append]
    by_cases ht : t = []
    · subst ht
      have hc : isDigit c = true := by simpa using hd.2
      have hcz : digitValue c ≠ 0 := fun h0 => hz (by
        rw [List.nil_append, List.head?_cons, ← digitChar_digitValue hc, h0]
        rfl)
      omega
    · have hpos : 0 < digitsValue 0 t := ih ht hd.1 (by rwa [List.head?_append_of_ne_nil _ ht] at hz)
      omega

/-- Writing the value of a canonical numeral gives its digits back, last digit first. -/
theorem natTextAux_digitsValue {t : Text} (ht : Canonical t) {fuel : Nat} (acc : Text)
    (hfuel : digitsValue 0 t < 10 ^ (fuel + 1)) : natTextAux (fuel + 1) (digitsValue 0 t) acc = t ++ acc := by
  obtain ⟨hne, hd, hz⟩ := ht
  induction t using List.reverseRecOn generalizing fuel acc with
  | nil => exact absurd rfl hne
  | append_singleton t c ih =>
    rw [List.all_append, Bool.and_eq_true] at hd
    have hc : isDigit c = true := by simpa using hd.2
    have hlt : digitValue c < 10 := digitValue_lt hc
    by_cases hnil : t = []
    · subst hnil
      have hvalue : digitsValue 0 ([] ++ [c]) = digitValue c := by simp [digitsValue]
      rw [hvalue, natTextAux_succ, if_pos hlt, digitChar_digitValue hc]
      rfl
    · have hhead : t.head? ≠ some '0' := by
        rcases hz with h | h
        · exact absurd (List.append_eq_singleton_iff.1 h) (by simp [hnil])
        · rwa [List.head?_append_of_ne_nil _ hnil] at h
      have hpos : 0 < digitsValue 0 t := digitsValue_pos hnil hd.1 hhead
      rw [digitsValue_append] at hfuel ⊢
      have hdiv : (10 * digitsValue 0 t + digitValue c) / 10 = digitsValue 0 t := by omega
      have hmod : (10 * digitsValue 0 t + digitValue c) % 10 = digitValue c := by omega
      rw [natTextAux_succ, if_neg (by omega), hdiv, hmod, digitChar_digitValue hc]
      cases fuel with
      | zero => omega
      | succ fuel =>
        have hfuel' : digitsValue 0 t < 10 ^ (fuel + 1) := by
          rw [Nat.pow_succ' (n := fuel + 1)] at hfuel
          omega
        rw [ih _ hfuel' hnil hd.1 (.inr hhead), List.append_assoc]
        rfl

theorem natText_of_parseNat {t : Text} {n : Nat} (h : parseNat t = some n) (hz : t = ['0'] ∨ t.head? ≠ some '0')
    (hn : n < 10 ^ 10) : natText n = t := by
  rw [parseNat_eq] at h
  split at h
  · next hdigits =>
    obtain rfl := Option.some.inj h
    rw [natText, natTextAux_digitsValue ⟨hdigits.1, hdigits.2, hz⟩ [] hn, List.append_nil]
  · cases h

/-! ### Register names (R55, R56, R109) -/

theorem eq_natText_of_numeralIndex {name : Text} {i : RegIdx} (h : numeralIndex name = some i) : name = natText i := by
  unfold numeralIndex at h
  split at h
  · cases h
  · next n hparse =>
    split_ifs at h with hlt hz
    cases h
    exact (natText_of_parseNat hparse hz (by omega)).symm

theorem resolveName_eq_some_iff (name : Text) (i : RegIdx) :
    resolveName name = some i ↔ name = natText i ∨ (name, i) ∈ aliasTable := by
  constructor
  · intro h
    unfold resolveName at h
    split at h
    · next hnumeral =>
      cases h
      exact .inl (eq_natText_of_numeralIndex hnumeral)
    · obtain ⟨⟨name', i'⟩, hfind, rfl⟩ := Option.map_eq_some_iff.1 h
      obtain rfl : name' = name := by simpa using List.find?_some hfind
      exact .inr (List.mem_of_find?_eq_some hfind)
  · rintro (rfl | hmem)
    · exact resolveName_natText i
    · exact resolveName_alias (name, i) hmem

theorem dropDollar_of_names {name : Text} {i : RegIdx} (h : name = natText i ∨ (name, i) ∈ aliasTable) :
    dropDollar name = name := by
  rcases h with rfl | hmem
  · exact dropDollar_natText i
  · exact dropDollar_alias (name, i) hmem

theorem performRegistersRead_of_some {name : Text} {i : RegIdx} (h : resolveName (dropDollar name) = some i)
    (s : State) : performCall (.registersRead name) s = .next s := by
  simp [performCall, registersRead_of_some h]

theorem performRegistersRead_of_none {name : Text} (h : resolveName (dropDollar name) = none) (s : State) :
    performCall (.registersRead name) s = .fault (.raised (.registerNotFound name) s) := by
  simp [performCall, registersRead, h, raise]

/-- Settles O52: a numeral that resolves is the written one of its index, and the accessor resolves the name with at
most one `$` taken off. -/
theorem registerNamesResolve : Obligations.RegisterNamesResolve := by
  refine ⟨resolveName_eq_some_iff, fun name i s hname => ?_, fun name s hnone => ?_⟩
  · have hresolve : resolveName name = some i := (resolveName_eq_some_iff name i).2 hname
    have hbare : resolveName (dropDollar name) = some i := by rw [dropDollar_of_names hname, hresolve]
    refine ⟨performRegistersRead_of_some hbare s,
      performRegistersRead_of_some (by rw [dropDollar_dollar, hresolve]) s, ?_⟩
    simp [replyOf, registersRead_of_some hbare]
  · exact performRegistersRead_of_none (Option.eq_none_iff_forall_ne_some.2 hnone) s

end Sys2Proof.Machine
end

section
/-! PROOFS. The text of an instruction assembles to its word (30_encoding.md R52 to R54, R57, R58). A line is its
mnemonic, a space, and its operands with commas between them; the assembler cuts it there again, because no mnemonic
and no operand holds a space or a comma, and reads each operand back. -/

namespace Sys2Proof.Machine

/-! ### Cutting a line (R52) -/

/-- A text that the cuts of a line leave whole: not empty, with no whitespace and no comma. -/
def Bare (t : Text) : Prop := t ≠ [] ∧ ∀ c ∈ t, isSpace c = false ∧ c ≠ ','

/-- No whitespace at either end. -/
def Trimmed (t : Text) : Prop := (∀ c ∈ t.head?, isSpace c = false) ∧ ∀ c ∈ t.getLast?, isSpace c = false

theorem trimmed_of_no_space {t : Text} (h : ∀ c ∈ t, isSpace c = false) : Trimmed t :=
  ⟨fun c hc => h c (List.mem_of_mem_head? hc), fun c hc => h c (List.mem_of_getLast? hc)⟩

theorem Bare.trimmed {t : Text} (h : Bare t) : Trimmed t := trimmed_of_no_space fun c hc => (h.2 c hc).1

theorem Bare.no_comma {t : Text} (h : Bare t) : ',' ∉ t := fun hmem => (h.2 ',' hmem).2 rfl

theorem Trimmed.append {a b : Text} (ha : Trimmed a) (hb : Trimmed b) (hane : a ≠ []) (hbne : b ≠ []) (m : Text) :
    Trimmed (a ++ m ++ b) := by
  refine ⟨fun c hc => ha.1 c ?_, fun c hc => hb.2 c ?_⟩
  · rwa [List.append_assoc, List.head?_append_of_ne_nil a hane] at hc
  · rwa [List.getLast?_append_of_ne_nil _ hbne] at hc

theorem dropWhile_isSpace_of_head {t : Text} (h : ∀ c ∈ t.head?, isSpace c = false) : t.dropWhile isSpace = t := by
  cases t with
  | nil => rfl
  | cons c t => rw [List.dropWhile_cons_of_neg (by simp [h c rfl])]

theorem trim_of_trimmed {t : Text} (h : Trimmed t) : trim t = t := by
  have hback : t.reverse.dropWhile isSpace = t.reverse :=
    dropWhile_isSpace_of_head (by rw [List.head?_reverse]; exact h.2)
  rw [trim, dropWhile_isSpace_of_head h.1, hback, List.reverse_reverse]

theorem trim_space (t : Text) : trim (' ' :: t) = trim t := by
  rw [trim, trim, List.dropWhile_cons_of_pos (by decide)]

section FirstWord
variable {w : Text} (hw : Bare w) (rest : Text)
include hw

theorem dropWhile_isSpace_bare : (w ++ ' ' :: rest).dropWhile isSpace = w ++ ' ' :: rest :=
  dropWhile_isSpace_of_head (by rw [List.head?_append_of_ne_nil w hw.1]; exact hw.trimmed.1)

theorem firstWord_bare : firstWord (w ++ ' ' :: rest) = w := by
  rw [firstWord, dropWhile_isSpace_bare hw, List.takeWhile_append_of_pos fun c hc => by simp [(hw.2 c hc).1]]
  simp [isSpace]

theorem operandText_bare : operandText (w ++ ' ' :: rest) = trim rest := by
  rw [operandText, dropWhile_isSpace_bare hw, List.dropWhile_append_of_pos fun c hc => by simp [(hw.2 c hc).1],
    ← trim_space rest]
  simp [isSpace]

end FirstWord

theorem splitCommas_of_no_comma {a : Text} (ha : ',' ∉ a) : splitCommas a = [a] := by
  induction a with
  | nil => rfl
  | cons c a ih =>
    rw [List.mem_cons, not_or] at ha
    rw [splitCommas, if_neg (Ne.symm ha.1), ih ha.2]

theorem splitCommas_append_comma {a : Text} (ha : ',' ∉ a) (t : Text) :
    splitCommas (a ++ ',' :: t) = a :: splitCommas t := by
  induction a with
  | nil => rfl
  | cons c a ih =>
    rw [List.mem_cons, not_or] at ha
    rw [List.cons_append, splitCommas, if_neg (Ne.symm ha.1), ih ha.2]

theorem splitCommas_ne_nil (t : Text) : splitCommas t ≠ [] := by
  cases t with
  | nil => simp [splitCommas]
  | cons c t =>
    rw [splitCommas]
    split
    · exact List.cons_ne_nil _ _
    · split <;> exact List.cons_ne_nil _ _

/-- A space at the front of a text is trimmed off its first piece. -/
theorem map_trim_splitCommas_space (t : Text) : (splitCommas (' ' :: t)).map trim = (splitCommas t).map trim := by
  rw [splitCommas, if_neg (by decide)]
  cases h : splitCommas t with
  | nil => exact absurd h (splitCommas_ne_nil t)
  | cons piece pieces => rw [List.map_cons, List.map_cons, trim_space]

/-- Bare pieces with commas between them. -/
def joined (pieces : List Text) : Text := commaText.intercalate pieces

theorem joined_cons_cons (p q : Text) (pieces : List Text) :
    joined (p :: q :: pieces) = p ++ commaText ++ joined (q :: pieces) := List.intercalate_cons_cons

theorem joined_trimmed {p : Text} {pieces : List Text} (h : ∀ t ∈ p :: pieces, Bare t) :
    joined (p :: pieces) ≠ [] ∧ Trimmed (joined (p :: pieces)) := by
  have hp : Bare p := h p List.mem_cons_self
  induction pieces generalizing p with
  | nil =>
    rw [joined, List.intercalate_singleton]
    exact ⟨hp.1, hp.trimmed⟩
  | cons q pieces ih =>
    have hq : Bare q := h q (List.mem_cons_of_mem p List.mem_cons_self)
    obtain ⟨hne, htrimmed⟩ := ih (fun t ht => h t (List.mem_cons_of_mem p ht)) hq
    rw [joined_cons_cons]
    exact ⟨List.append_ne_nil_of_right_ne_nil _ hne, hp.trimmed.append htrimmed hp.1 hne commaText⟩

/-- Cutting at the commas gives the pieces back. -/
theorem splitCommas_joined {p : Text} {pieces : List Text} (h : ∀ t ∈ p :: pieces, Bare t) :
    (splitCommas (joined (p :: pieces))).map trim = p :: pieces := by
  have hp : Bare p := h p List.mem_cons_self
  induction pieces generalizing p with
  | nil =>
    rw [joined, List.intercalate_singleton, splitCommas_of_no_comma hp.no_comma, List.map_singleton,
      trim_of_trimmed hp.trimmed]
  | cons q pieces ih =>
    have htail : ∀ t ∈ q :: pieces, Bare t := fun t ht => h t (List.mem_cons_of_mem p ht)
    have hcomma : p ++ commaText ++ joined (q :: pieces) = p ++ ',' :: (' ' :: joined (q :: pieces)) := by
      simp [commaText]
    rw [joined_cons_cons, hcomma, splitCommas_append_comma hp.no_comma, List.map_cons, trim_of_trimmed hp.trimmed,
      map_trim_splitCommas_space, ih htail (htail q List.mem_cons_self)]

/-- The operands of a line in its text form are its pieces, each parsed. -/
theorem parseOperands_joined {w p : Text} {pieces : List Text} (hw : Bare w) (h : ∀ t ∈ p :: pieces, Bare t) :
    parseOperands (w ++ ' ' :: joined (p :: pieces)) = allSome ((p :: pieces).map parseOperand) := by
  obtain ⟨hne, htrimmed⟩ := joined_trimmed h
  rw [parseOperands, operandText_bare hw, trim_of_trimmed htrimmed, if_neg hne, ← Function.comp_def parseOperand trim,
    ← List.map_map, splitCommas_joined h]

/-! ### The mnemonic (R53) -/

theorem bare_mnemonicName (m : Mnemonic) : Bare (mnemonicName m) := by
  cases m <;> simp [Bare, mnemonicName, isSpace]

theorem toLower_mnemonicName (m : Mnemonic) : (mnemonicName m).map Char.toLower = mnemonicName m := by
  cases m <;> decide

theorem find?_mnemonicName (p : Parser) : ∀ m ∈ parserTable p,
    ((parserTable p).find? fun n => mnemonicName n = mnemonicName m) = some m := by
  cases p <;> decide

theorem tableMnemonic_text {p : Parser} {m : Mnemonic} (hm : m ∈ parserTable p) (rest : Text) :
    tableMnemonic p (mnemonicName m ++ ' ' :: rest) = some m := by
  rw [tableMnemonic, firstWord_bare (bare_mnemonicName m), toLower_mnemonicName, find?_mnemonicName p m hm]

/-! ### Numbers as operands (R52, R57) -/

theorem ne_of_isDigit {c d : Char} (h : isDigit c = true) (hd : isDigit d = false) : c ≠ d := by
  rintro rfl
  exact absurd (h.symm.trans hd) (by decide)

/-- A digit is none of the marks an operand is cut at. -/
theorem marks_of_isDigit {c : Char} (h : isDigit c = true) :
    isSpace c = false ∧ c ≠ ',' ∧ c ≠ '(' ∧ c ≠ ')' ∧ c ≠ '$' := by
  have hspace : isSpace c = false := by
    rw [isSpace, Bool.or_eq_false_iff, beq_eq_false_iff_ne, beq_eq_false_iff_ne]
    exact ⟨ne_of_isDigit h rfl, ne_of_isDigit h rfl⟩
  exact ⟨hspace, ne_of_isDigit h rfl, ne_of_isDigit h rfl, ne_of_isDigit h rfl, ne_of_isDigit h rfl⟩

theorem isDigit_of_mem_natText {n : Nat} {c : Char} (h : c ∈ natText n) : isDigit c = true :=
  List.all_eq_true.1 (all_isDigit_natText n) c h

theorem bare_natText (n : Nat) : Bare (natText n) := by
  refine ⟨natText_ne_nil n, fun c hc => ?_⟩
  obtain ⟨hspace, hcomma, -⟩ := marks_of_isDigit (isDigit_of_mem_natText hc)
  exact ⟨hspace, hcomma⟩

theorem intText_eq (n : Int) :
    intText n = natText n.natAbs ∧ 0 ≤ n ∨ intText n = '-' :: natText n.natAbs ∧ n < 0 := by
  unfold intText
  split
  · exact .inr ⟨rfl, ‹_›⟩
  · exact .inl ⟨rfl, by omega⟩

theorem mem_intText {n : Int} {c : Char} (h : c ∈ intText n) : c = '-' ∨ isDigit c = true := by
  rcases intText_eq n with ⟨htext, -⟩ | ⟨htext, -⟩
  · rw [htext] at h
    exact .inr (isDigit_of_mem_natText h)
  · rw [htext, List.mem_cons] at h
    exact h.imp_right isDigit_of_mem_natText

theorem intText_ne_nil (n : Int) : intText n ≠ [] := by
  rcases intText_eq n with ⟨htext, -⟩ | ⟨htext, -⟩
  · rw [htext]
    exact natText_ne_nil _
  · rw [htext]
    exact List.cons_ne_nil _ _

/-- Nor does a sign stand among those marks. -/
theorem marks_of_mem_intText {n : Int} {c : Char} (h : c ∈ intText n) :
    isSpace c = false ∧ c ≠ ',' ∧ c ≠ '(' ∧ c ≠ '$' := by
  rcases mem_intText h with rfl | hd
  · decide
  · obtain ⟨hspace, hcomma, hparen, -, hdollar⟩ := marks_of_isDigit hd
    exact ⟨hspace, hcomma, hparen, hdollar⟩

theorem bare_intText (n : Int) : Bare (intText n) := by
  refine ⟨intText_ne_nil n, fun c hc => ?_⟩
  obtain ⟨hspace, hcomma, -⟩ := marks_of_mem_intText hc
  exact ⟨hspace, hcomma⟩

/-- A string of digits has no sign. -/
theorem parseImm_natText {n : Nat} (hn : n < 10 ^ 10) : parseImm (natText n) = some (n : Int) := by
  unfold parseImm
  split
  · next digits heq =>
    have hplus : '+' ∈ natText n := by rw [heq]; exact List.mem_cons_self
    exact absurd (isDigit_of_mem_natText hplus) (by decide)
  · next digits heq =>
    have hminus : '-' ∈ natText n := by rw [heq]; exact List.mem_cons_self
    exact absurd (isDigit_of_mem_natText hminus) (by decide)
  · simp [parseNat_natText hn]

theorem parseImm_intText {n : Int} (hn : n.natAbs < 10 ^ 10) : parseImm (intText n) = some n := by
  rcases intText_eq n with ⟨htext, hsign⟩ | ⟨htext, hsign⟩
  · rw [htext, parseImm_natText hn, Int.natAbs_of_nonneg hsign]
  · rw [htext, parseImm, parseNat_natText hn]
    simp [abs_of_neg hsign]

/-! ### The three forms of an operand (R52) -/

theorem bare_regText (i : RegIdx) : Bare (regText i) := by
  refine ⟨List.cons_ne_nil _ _, fun c hc => ?_⟩
  rcases List.mem_cons.1 hc with rfl | hc
  · decide
  · exact (bare_natText i.val).2 c hc

theorem parseReg_regText (i : RegIdx) : parseReg (regText i) = some (regText i) := by
  have hname : (natText i.val).all isNameChar = true := List.all_eq_true.2 fun c hc => by
    obtain ⟨hspace, hcomma, hopen, hclose, -⟩ := marks_of_isDigit (isDigit_of_mem_natText hc)
    simp [isNameChar, hspace, hcomma, hopen, hclose]
  rw [regText, parseReg, if_pos ⟨natText_ne_nil i.val, hname⟩]

theorem parseReg_of_head {t : Text} (h : t.head? ≠ some '$') : parseReg t = none := by
  unfold parseReg
  split
  · exact absurd rfl h
  · rfl

/-- A number, and whatever follows it, is no register token. -/
theorem parseReg_intText (n : Int) (rest : Text) : parseReg (intText n ++ rest) = none := by
  refine parseReg_of_head fun h => ?_
  rw [List.head?_append_of_ne_nil _ (intText_ne_nil n)] at h
  obtain ⟨-, -, -, hdollar⟩ := marks_of_mem_intText (List.mem_of_head? h)
  exact hdollar rfl

theorem parseOperand_regText (i : RegIdx) : parseOperand (regText i) = some (.reg (regText i)) := by
  rw [parseOperand, parseReg_regText]

section Number
variable {n : Int} (hn : n.natAbs < 10 ^ 10)
include hn

/-- A number ends where a parenthesis opens. -/
theorem parseOperand_intText_append (rest : Text) (hrest : rest.head? = none ∨ rest.head? = some '(') :
    parseOperand (intText n ++ rest) =
      if rest = [] then some (.imm n) else (parseParenthesised rest).map (.mem n) := by
  have hno : ∀ c ∈ intText n, (c != '(') = true := fun c hc => by
    obtain ⟨-, -, hparen, -⟩ := marks_of_mem_intText hc
    simpa using hparen
  have hcut : rest.takeWhile (fun c => c != '(') = [] ∧ rest.dropWhile (fun c => c != '(') = rest := by
    cases rest with
    | nil => exact ⟨rfl, rfl⟩
    | cons c rest =>
      obtain rfl : c = '(' := by simpa using hrest
      exact ⟨rfl, rfl⟩
  rw [parseOperand, parseReg_intText]
  simp only [List.takeWhile_append_of_pos hno, List.dropWhile_append_of_pos hno, hcut, List.append_nil,
    trim_of_trimmed (bare_intText n).trimmed, parseImm_intText hn]

theorem parseOperand_intText : parseOperand (intText n) = some (.imm n) := by
  simpa using parseOperand_intText_append hn [] (.inl rfl)

theorem parseOperand_offset (b : RegIdx) :
    parseOperand (intText n ++ '(' :: (regText b ++ [')'])) = some (.mem n (regText b)) := by
  have hbase : parseParenthesised ('(' :: (regText b ++ [')'])) = some (regText b) := by
    simp [parseParenthesised, trim_of_trimmed (bare_regText b).trimmed, parseReg_regText]
  rw [parseOperand_intText_append hn _ (.inr rfl), if_neg (List.cons_ne_nil _ _), hbase, Option.map_some]

end Number

theorem bare_offset (n : Int) (b : RegIdx) : Bare (intText n ++ '(' :: (regText b ++ [')'])) := by
  refine ⟨List.append_ne_nil_of_left_ne_nil (intText_ne_nil n) _, fun c hc => ?_⟩
  simp only [List.mem_append, List.mem_cons, List.not_mem_nil, or_false] at hc
  rcases hc with hc | rfl | hc | rfl
  · exact (bare_intText n).2 c hc
  · decide
  · exact (bare_regText b).2 c hc
  · decide

/-! ### The four shapes of a line (R54, R58) -/

@[simp] theorem resolveToken_regText (i : RegIdx) : resolveToken (regText i) = .ok i :=
  resolveToken_of_some (by rw [regText, dropDollar_dollar, resolveName_natText])

/-- A line in its text form is what its operands build. -/
theorem assemble_joined {p : Parser} {m : Mnemonic} {t : Text} {pieces : List Text} {operands : List Operand}
    {i : Instr} (hm : m ∈ parserTable p) (h : ∀ u ∈ t :: pieces, Bare u)
    (hops : allSome ((t :: pieces).map parseOperand) = some operands)
    (hbuild : ∀ line, buildInstr line m operands = .ok i) :
    assemble (mnemonicName m ++ ' ' :: joined (t :: pieces)) = .ok (encode i) := by
  have hparse : parseOperands (mnemonicName m ++ ' ' :: joined (t :: pieces)) = some operands :=
    (parseOperands_joined (bare_mnemonicName m) h).trans hops
  rw [assemble_eq_buildInstr (tableMnemonic_text hm _) hparse, hbuild]
  rfl

theorem assemble_threeRegsText {m : Mnemonic} {mk : RegIdx → RegIdx → RegIdx → Instr} (hm : m ∈ parserTable .R)
    (hbuild : ∀ line a b c, buildInstr line m [.reg a, .reg b, .reg c] = threeRegs mk a b c) (a b c : RegIdx) :
    assemble (threeRegsText m a b c) = .ok (encode (mk a b c)) := by
  have htext : threeRegsText m a b c = mnemonicName m ++ ' ' :: joined [regText a, regText b, regText c] := by
    simp [threeRegsText, joined]
  rw [htext]
  refine assemble_joined (operands := [.reg (regText a), .reg (regText b), .reg (regText c)]) hm ?_ ?_ fun line => ?_
  · simp [bare_regText]
  · simp [parseOperand_regText, allSome]
  · simp [hbuild, threeRegs]

/-- A 16-bit immediate is well below the numerals' ten digits. -/
theorem natAbs_toInt_lt (imm16 : BitVec 16) : imm16.toInt.natAbs < 10 ^ 10 := by
  have hlo := BitVec.le_toInt imm16
  have hhi := BitVec.toInt_lt (x := imm16)
  norm_num at hlo hhi ⊢
  omega

theorem encS_toInt (imm16 : BitVec 16) : encS imm16.toInt 16 = .ok imm16 := encS_decS imm16

theorem assemble_twoRegsImmText {m : Mnemonic} {mk : RegIdx → RegIdx → BitVec 16 → Instr} (hm : m ∈ parserTable .I)
    (hbuild : ∀ line a b n, buildInstr line m [.reg a, .reg b, .imm n] = twoRegsImm mk a b n) (a b : RegIdx)
    (imm16 : BitVec 16) : assemble (twoRegsImmText m a b imm16) = .ok (encode (mk a b imm16)) := by
  have htext : twoRegsImmText m a b imm16 =
      mnemonicName m ++ ' ' :: joined [regText a, regText b, intText imm16.toInt] := by
    simp [twoRegsImmText, joined]
  rw [htext]
  refine assemble_joined (operands := [.reg (regText a), .reg (regText b), .imm imm16.toInt]) hm ?_ ?_ fun line => ?_
  · simp [bare_regText, bare_intText]
  · simp [parseOperand_regText, parseOperand_intText (natAbs_toInt_lt imm16), allSome]
  · simp [hbuild, twoRegsImm, encS_toInt]

theorem assemble_regOffsetBaseText {m : Mnemonic} {mk : RegIdx → RegIdx → BitVec 16 → Instr}
    (hm : m ∈ parserTable .I)
    (hbuild : ∀ line a n b, buildInstr line m [.reg a, .mem n b] = regOffsetBase mk a n b) (a b : RegIdx)
    (imm16 : BitVec 16) : assemble (regOffsetBaseText m a b imm16) = .ok (encode (mk a b imm16)) := by
  have htext : regOffsetBaseText m a b imm16 =
      mnemonicName m ++ ' ' :: joined [regText a, intText imm16.toInt ++ '(' :: (regText b ++ [')'])] := by
    simp [regOffsetBaseText, joined]
  rw [htext]
  refine assemble_joined (operands := [.reg (regText a), .mem imm16.toInt (regText b)]) hm ?_ ?_ fun line => ?_
  · simp [bare_regText, bare_offset]
  · simp [parseOperand_regText, parseOperand_offset (natAbs_toInt_lt imm16), allSome]
  · simp [hbuild, regOffsetBase, encS_toInt]

theorem encU_26_toNat (addr26 : BitVec 26) : encU (addr26.toNat : Int) 26 = .ok addr26 := encU_decU (w := 26) addr26

/-- A numeral is the signed decimal of itself. -/
theorem natText_eq_intText (n : Nat) : natText n = intText n := by
  rw [intText, if_neg (Int.not_lt.2 (Int.natCast_nonneg n)), Int.natAbs_natCast]

theorem assemble_jText (addr26 : BitVec 26) : assemble (instrText (.j addr26)) = .ok (encode (.j addr26)) := by
  have hlt : (addr26.toNat : Int).natAbs < 10 ^ 10 := by
    rw [Int.natAbs_natCast]
    omega
  have htext : instrText (.j addr26) = mnemonicName .j ++ ' ' :: joined [intText addr26.toNat] := by
    rw [instrText, natText_eq_intText, joined, List.intercalate_singleton]
  rw [htext]
  refine assemble_joined (p := .J) (operands := [.imm addr26.toNat]) (by decide) ?_ ?_ fun line => ?_
  · simp [bare_intText]
  · simp [parseOperand_intText hlt, allSome]
  · simp [buildInstr, encU_26_toNat]

/-! ### The statement (R53, R57, R58) -/

theorem assemble_instrText (i : Instr) : assemble (instrText i) = .ok (encode i) := by
  cases i with
  | add rs rt rd => exact assemble_threeRegsText (by decide) (fun _ _ _ _ => rfl) rs rt rd
  | sub rs rt rd => exact assemble_threeRegsText (by decide) (fun _ _ _ _ => rfl) rs rt rd
  | and rs rt rd => exact assemble_threeRegsText (by decide) (fun _ _ _ _ => rfl) rs rt rd
  | or rs rt rd => exact assemble_threeRegsText (by decide) (fun _ _ _ _ => rfl) rs rt rd
  | slt rs rt rd => exact assemble_threeRegsText (by decide) (fun _ _ _ _ => rfl) rs rt rd
  | addi rs rt imm16 => exact assemble_twoRegsImmText (by decide) (fun _ _ _ _ => rfl) rs rt imm16
  | lw rs rt imm16 => exact assemble_regOffsetBaseText (by decide) (fun _ _ _ _ => rfl) rs rt imm16
  | sw rs rt imm16 => exact assemble_regOffsetBaseText (by decide) (fun _ _ _ _ => rfl) rs rt imm16
  | beq rs rt imm16 => exact assemble_twoRegsImmText (by decide) (fun _ _ _ _ => rfl) rs rt imm16
  | j addr26 => exact assemble_jText addr26

/-- Settles O53: the line is cut into the pieces it was written from, each is read back, and the word decodes. -/
theorem assembleOfText : Obligations.AssembleOfText := fun i =>
  ⟨assemble_instrText i, fromSymbolic_of_encode (assemble_instrText i)⟩

end Sys2Proof.Machine
end

section
/-! PROOFS. Which parser a line goes to, and which of its faults is reported (30_encoding.md R53, R54, R57 to R59). A
line has one mnemonic, which stands in one parser's table; what is left is what its operands build, and they are looked
at from left to right. -/

namespace Sys2Proof.Machine

/-! ### The parsers (R53) -/

/-- A parser matches the names of its table. -/
theorem parserMatches_iff (p : Parser) (line : Text) :
    parserMatches p line = true ↔ (firstWord line).map Char.toLower ∈ (parserTable p).map mnemonicName := by
  simp [parserMatches, tableMnemonic, List.find?_isSome]

theorem tableMnemonic_of_matches {p : Parser} {line : Text} (h : parserMatches p line = true) :
    ∃ m, tableMnemonic p line = some m := Option.isSome_iff_exists.1 h

/-- Settles O55: the tables are disjoint, and the parser whose table holds the mnemonic is the one used. -/
theorem parserOrderIsNotObservable : Obligations.ParserOrderIsNotObservable := by
  refine ⟨fun line => ⟨parserMatches_iff .R line, parserMatches_iff .I line, ?_⟩, fun p line line' h => ?_,
    fun p q line hp hq => ?_, fun p line h => ?_, fun line => assemble_of_no_match⟩
  · exact (parserMatches_iff .J line).trans List.mem_singleton
  · rw [parserMatches, parserMatches, tableMnemonic, tableMnemonic, h]
  · obtain ⟨m, hm⟩ := tableMnemonic_of_matches hp
    obtain ⟨n, hn⟩ := tableMnemonic_of_matches hq
    obtain ⟨hmem, hname⟩ := tableMnemonic_eq_some hm
    obtain ⟨hmem', hname'⟩ := tableMnemonic_eq_some hn
    exact parser_eq_of_mnemonicName_eq p q m hmem n hmem' (hname.trans hname'.symm)
  · obtain ⟨m, hm⟩ := tableMnemonic_of_matches h
    exact assemble_of_tableMnemonic hm

/-! ### The shape of the operands (R54) -/

/-- The operands a mnemonic takes, by their shape. -/
def TakesOperands (m : Mnemonic) (operands : List Operand) : Prop :=
  match m with
  | .add | .sub | .and | .or | .slt => ∃ a b c, operands = [.reg a, .reg b, .reg c]
  | .addi | .beq => ∃ a b n, operands = [.reg a, .reg b, .imm n]
  | .lw | .sw => ∃ a n b, operands = [.reg a, .mem n b]
  | .j => ∃ n, operands = [.imm n]

/-- Operands of another shape are a fault of the whole line. -/
theorem buildInstr_of_wrong_shape {line : Text} {m : Mnemonic} {operands : List Operand}
    (h : ¬ TakesOperands m operands) : buildInstr line m operands = .error (.instructionNotFound (.text line)) := by
  unfold buildInstr
  split
  case h_11 => rfl
  all_goals
    refine absurd ?_ h
    simp [TakesOperands]

theorem assemble_of_wrong_shape {p : Parser} {line : Text} {m : Mnemonic} (hm : tableMnemonic p line = some m)
    (h : ∀ operands, parseOperands line = some operands → ¬ TakesOperands m operands) :
    assemble line = .error (.instructionNotFound (.text line)) := by
  rw [assemble_of_tableMnemonic hm]
  cases hops : parseOperands line with
  | none => simp only [parserParse, hm, hops]
  | some operands => simp only [parserParse, hm, hops, buildInstr_of_wrong_shape (h operands hops), except_map_error]

/-! ### The operands, left to right (R57 to R59) -/

section Resolve
variable {β : Type} {a : Text} {i : RegIdx}

theorem thenDo_resolveToken_of_none (ha : resolveName (dropDollar a) = none)
    (f : RegIdx → Except BoundaryError β) : thenDo (resolveToken a) f = .error (.registerNotFound a) := by
  rw [resolveToken_of_none ha, thenDo_error]

theorem thenDo_resolveToken_of_some (ha : resolveName (dropDollar a) = some i)
    (f : RegIdx → Except BoundaryError β) : thenDo (resolveToken a) f = f i := by
  rw [resolveToken_of_some ha, thenDo_ok]

end Resolve

theorem encS_16_of_mem_range {n : Int} (hlo : -32768 ≤ n) (hhi : n ≤ 32767) :
    encS n 16 = .ok (BitVec.ofInt 16 n) := by
  rw [encS_16, if_pos ⟨hlo, hhi⟩]

theorem encS_16_of_not_mem_range {n : Int} (h : n < -32768 ∨ 32767 < n) : encS n 16 = .error (.range n 16) := by
  rw [encS_16, if_neg (by omega)]

/-- The reply to a line of three registers, fault by fault. -/
theorem assemble_threeRegs {line : Text} {m : Mnemonic} {mk : RegIdx → RegIdx → RegIdx → Instr}
    (hm : tableMnemonic .R line = some m)
    (hbuild : ∀ a b c, buildInstr line m [.reg a, .reg b, .reg c] = threeRegs mk a b c) {a b c : Text}
    (hops : parseOperands line = some [.reg a, .reg b, .reg c]) :
    (resolveName (dropDollar a) = none → assemble line = .error (.registerNotFound a)) ∧
    (∀ i, resolveName (dropDollar a) = some i → resolveName (dropDollar b) = none →
      assemble line = .error (.registerNotFound b)) ∧
    (∀ i j, resolveName (dropDollar a) = some i → resolveName (dropDollar b) = some j →
      resolveName (dropDollar c) = none → assemble line = .error (.registerNotFound c)) ∧
    (∀ i j k, resolveName (dropDollar a) = some i → resolveName (dropDollar b) = some j →
      resolveName (dropDollar c) = some k → assemble line = .ok (encode (mk i j k))) := by
  rw [assemble_eq_buildInstr hm hops, hbuild, threeRegs]
  refine ⟨fun ha => ?_, fun i ha hb => ?_, fun i j ha hb hc => ?_, fun i j k ha hb hc => ?_⟩
  · rw [thenDo_resolveToken_of_none ha, except_map_error]
  · rw [thenDo_resolveToken_of_some ha, thenDo_resolveToken_of_none hb, except_map_error]
  · rw [thenDo_resolveToken_of_some ha, thenDo_resolveToken_of_some hb, thenDo_resolveToken_of_none hc,
      except_map_error]
  · rw [thenDo_resolveToken_of_some ha, thenDo_resolveToken_of_some hb, thenDo_resolveToken_of_some hc, except_map_ok]

/-- The reply to a line of two registers and an immediate, fault by fault. -/
theorem assemble_twoRegsImm {line : Text} {m : Mnemonic} {mk : RegIdx → RegIdx → BitVec 16 → Instr}
    (hm : tableMnemonic .I line = some m)
    (hbuild : ∀ a b n, buildInstr line m [.reg a, .reg b, .imm n] = twoRegsImm mk a b n) {a b : Text} {n : Int}
    (hops : parseOperands line = some [.reg a, .reg b, .imm n]) :
    (resolveName (dropDollar a) = none → assemble line = .error (.registerNotFound a)) ∧
    (∀ i, resolveName (dropDollar a) = some i → resolveName (dropDollar b) = none →
      assemble line = .error (.registerNotFound b)) ∧
    (∀ i j, resolveName (dropDollar a) = some i → resolveName (dropDollar b) = some j → n < -32768 ∨ 32767 < n →
      assemble line = .error (.range n 16)) ∧
    (∀ i j, resolveName (dropDollar a) = some i → resolveName (dropDollar b) = some j → -32768 ≤ n → n ≤ 32767 →
      assemble line = .ok (encode (mk i j (BitVec.ofInt 16 n)))) := by
  rw [assemble_eq_buildInstr hm hops, hbuild, twoRegsImm]
  refine ⟨fun ha => ?_, fun i ha hb => ?_, fun i j ha hb hn => ?_, fun i j ha hb hlo hhi => ?_⟩
  · rw [thenDo_resolveToken_of_none ha, except_map_error]
  · rw [thenDo_resolveToken_of_some ha, thenDo_resolveToken_of_none hb, except_map_error]
  · rw [thenDo_resolveToken_of_some ha, thenDo_resolveToken_of_some hb, encS_16_of_not_mem_range hn, thenDo_error,
      except_map_error]
  · rw [thenDo_resolveToken_of_some ha, thenDo_resolveToken_of_some hb, encS_16_of_mem_range hlo hhi, thenDo_ok,
      except_map_ok]

/-- The reply to a line of a register, an offset and a base, fault by fault. -/
theorem assemble_regOffsetBase {line : Text} {m : Mnemonic} {mk : RegIdx → RegIdx → BitVec 16 → Instr}
    (hm : tableMnemonic .I line = some m)
    (hbuild : ∀ a n b, buildInstr line m [.reg a, .mem n b] = regOffsetBase mk a n b) {a b : Text} {n : Int}
    (hops : parseOperands line = some [.reg a, .mem n b]) :
    (resolveName (dropDollar a) = none → assemble line = .error (.registerNotFound a)) ∧
    (∀ i, resolveName (dropDollar a) = some i → n < -32768 ∨ 32767 < n → assemble line = .error (.range n 16)) ∧
    (∀ i, resolveName (dropDollar a) = some i → -32768 ≤ n → n ≤ 32767 → resolveName (dropDollar b) = none →
      assemble line = .error (.registerNotFound b)) ∧
    (∀ i j, resolveName (dropDollar a) = some i → -32768 ≤ n → n ≤ 32767 → resolveName (dropDollar b) = some j →
      assemble line = .ok (encode (mk i j (BitVec.ofInt 16 n)))) := by
  rw [assemble_eq_buildInstr hm hops, hbuild, regOffsetBase]
  refine ⟨fun ha => ?_, fun i ha hn => ?_, fun i ha hlo hhi hb => ?_, fun i j ha hlo hhi hb => ?_⟩
  · rw [thenDo_resolveToken_of_none ha, except_map_error]
  · rw [thenDo_resolveToken_of_some ha, encS_16_of_not_mem_range hn, thenDo_error, except_map_error]
  · rw [thenDo_resolveToken_of_some ha, encS_16_of_mem_range hlo hhi, thenDo_ok, thenDo_resolveToken_of_none hb,
      except_map_error]
  · rw [thenDo_resolveToken_of_some ha, encS_16_of_mem_range hlo hhi, thenDo_ok, thenDo_resolveToken_of_some hb,
      except_map_ok]

/-- The reply to a jump's line. -/
theorem assemble_jump {line : Text} (hm : tableMnemonic .J line = some .j) {n : Int}
    (hops : parseOperands line = some [.imm n]) :
    (n < 0 ∨ 67108863 < n → assemble line = .error (.range n 26)) ∧
    (0 ≤ n → n ≤ 67108863 → assemble line = .ok (encode (.j (BitVec.ofInt 26 n)))) := by
  rw [assemble_eq_buildInstr hm hops, buildInstr, encU_26]
  refine ⟨fun hn => ?_, fun hlo hhi => ?_⟩
  · rw [if_neg (by omega), thenDo_error, except_map_error]
  · rw [if_pos ⟨hlo, hhi⟩, thenDo_ok, except_map_ok]

/-! ### The mnemonics of each shape (R54) -/

theorem threeRegs_rows {m : Mnemonic} {mk : RegIdx → RegIdx → RegIdx → Instr}
    (h : (m, mk) ∈ [(Mnemonic.add, Instr.add), (.sub, .sub), (.and, .and), (.or, .or), (.slt, .slt)]) :
    (∀ operands, TakesOperands m operands → ∃ a b c, operands = [.reg a, .reg b, .reg c]) ∧
      ∀ line a b c, buildInstr line m [.reg a, .reg b, .reg c] = threeRegs mk a b c := by
  simp only [List.mem_cons, Prod.mk.injEq, List.not_mem_nil, or_false] at h
  rcases h with ⟨rfl, rfl⟩ | ⟨rfl, rfl⟩ | ⟨rfl, rfl⟩ | ⟨rfl, rfl⟩ | ⟨rfl, rfl⟩
  all_goals exact ⟨fun _ hops => hops, fun _ _ _ _ => rfl⟩

theorem twoRegsImm_rows {m : Mnemonic} {mk : RegIdx → RegIdx → BitVec 16 → Instr}
    (h : (m, mk) ∈ [(Mnemonic.addi, Instr.addi), (.beq, .beq)]) :
    (∀ operands, TakesOperands m operands → ∃ a b n, operands = [.reg a, .reg b, .imm n]) ∧
      ∀ line a b n, buildInstr line m [.reg a, .reg b, .imm n] = twoRegsImm mk a b n := by
  simp only [List.mem_cons, Prod.mk.injEq, List.not_mem_nil, or_false] at h
  rcases h with ⟨rfl, rfl⟩ | ⟨rfl, rfl⟩
  all_goals exact ⟨fun _ hops => hops, fun _ _ _ _ => rfl⟩

theorem regOffsetBase_rows {m : Mnemonic} {mk : RegIdx → RegIdx → BitVec 16 → Instr}
    (h : (m, mk) ∈ [(Mnemonic.lw, Instr.lw), (.sw, .sw)]) :
    (∀ operands, TakesOperands m operands → ∃ a n b, operands = [.reg a, .mem n b]) ∧
      ∀ line a n b, buildInstr line m [.reg a, .mem n b] = regOffsetBase mk a n b := by
  simp only [List.mem_cons, Prod.mk.injEq, List.not_mem_nil, or_false] at h
  rcases h with ⟨rfl, rfl⟩ | ⟨rfl, rfl⟩
  all_goals exact ⟨fun _ hops => hops, fun _ _ _ _ => rfl⟩

/-! ### The statement (R59) -/

/-- Settles O56: for each shape, a line of another shape is refused whole, and one of this shape is what its operands
build. -/
theorem firstOperandFaultIsReported : Obligations.FirstOperandFaultIsReported := by
  refine ⟨fun line => assemble_of_no_match, fun line m mk hmk hm => ?_, fun line m mk hmk hm => ?_,
    fun line m mk hmk hm => ?_, fun line hm => ?_⟩
  · obtain ⟨hshape, hbuild⟩ := threeRegs_rows hmk
    refine ⟨fun hother => assemble_of_wrong_shape hm fun operands hops htakes => ?_,
      fun a b c => assemble_threeRegs hm (hbuild line)⟩
    obtain ⟨a, b, c, rfl⟩ := hshape operands htakes
    exact hother a b c hops
  · obtain ⟨hshape, hbuild⟩ := twoRegsImm_rows hmk
    refine ⟨fun hother => assemble_of_wrong_shape hm fun operands hops htakes => ?_,
      fun a b n => assemble_twoRegsImm hm (hbuild line)⟩
    obtain ⟨a, b, n, rfl⟩ := hshape operands htakes
    exact hother a b n hops
  · obtain ⟨hshape, hbuild⟩ := regOffsetBase_rows hmk
    refine ⟨fun hother => assemble_of_wrong_shape hm fun operands hops htakes => ?_,
      fun a b n => assemble_regOffsetBase hm (hbuild line)⟩
    obtain ⟨a, n, b, rfl⟩ := hshape operands htakes
    exact hother a n b hops
  · refine ⟨fun hother => assemble_of_wrong_shape hm fun operands hops htakes => ?_, fun n => assemble_jump hm⟩
    obtain ⟨n, rfl⟩ := htakes
    exact hother n hops

end Sys2Proof.Machine
end
